-- ==== Sys2Proof/Word.lean ====
section
/-! DEFINITION. The word and byte types of RFP (10_state.md R25, 00_scope.md R6). -/

namespace Sys2Proof

/-- A host-visible register value: 32 bits (10_state.md R25). -/
abbrev Word := BitVec 32

/-- One byte of a frame or of the frame buffer (10_state.md R22). -/
abbrev Byte := BitVec 8

end Sys2Proof
end

