-- ==== Sys2Proof/Config.lean ====
section
/-! DEFINITION. What an implementation fixes (00_scope.md R5) and the one free value of the model. -/

namespace Sys2Proof

/-- The build parameters of 00_scope.md R5. They are carried in the machine's state as plain data that no step
changes, so that every statement holds for every build (log entry 1). -/
structure Config where
  /-- `BLOCK_BASE`: where the window sits on the host bus. -/
  blockBase : Nat
  /-- `HOST_ADDR_BITS`: the width of the host's address bus. -/
  hostAddrBits : Nat
  /-- `FBUF_SIZE`: bytes in the frame buffer. -/
  fbufSize : Nat
  /-- `ALLOW_N`: how many allowlist entries the build has. -/
  allowN : Nat
  /-- `PREAMBLE`: the first byte of every frame. -/
  preamble : Byte
  deriving DecidableEq, Repr

/-- The spec's defaults for `FBUF_SIZE`, `ALLOW_N` and `PREAMBLE` (00_scope.md R5).
DESIGN CHOICE (log entry 1): the spec leaves `BLOCK_BASE` and `HOST_ADDR_BITS` open; 0 and 32 stand here. -/
def Config.standard : Config :=
  { blockBase := 0, hostAddrBits := 32, fbufSize := 4096, allowN := 8, preamble := 0xD3#8 }

/-- FREE VALUE (log entry 4): the value drawn by the n-th read of a register other than STATUS and CMD made while a
command is pending (20_memory.md R64). It has no body, so nothing can be proved of it. -/
opaque Config.busyReadDraw : Nat → Word

end Sys2Proof
end

