-- ==== Sys2Proof/Syntax.lean ====
section
/-! DEFINITION. The commands of RFP-1, one constructor per row of spec/opcode_table.json (30_encoding.md R82).
A command word has no operand fields (R80), so no constructor has an argument. -/

namespace Sys2Proof

/-- The seven commands; 00_scope.md R10: "command" and "instruction" mean the same thing. -/
inductive Instr where
  /-- FRAME_PARSE (40_frame_parser.md R111). -/
  | frameParse
  /-- CRC_CHECK (41_crc24q.md R123). -/
  | crcCheck
  /-- MSM7_DECODE (42_msm7_reader.md R137). -/
  | msm7Decode
  /-- FRAME_DECODE (43_frame_decode.md R150). -/
  | frameDecode
  /-- TOW_FROM_UTC (44_gps_time.md R163). -/
  | towFromUtc
  /-- UTC_FROM_TOW (44_gps_time.md R165). -/
  | utcFromTow
  /-- TOW_COMPARE (44_gps_time.md R167). -/
  | towCompare
  deriving DecidableEq, Repr

end Sys2Proof
end

