-- ==== Sys2Proof/WellFormed.lean ====
section
/-! DEFINITION. Which builds and which command-word fields are well formed. -/

namespace Sys2Proof

/-- The parameter ranges of 00_scope.md R5: `BLOCK_BASE` a multiple of 0x8000, `HOST_ADDR_BITS` at least 15,
`FBUF_SIZE` in 1029..4096, `ALLOW_N` in 5..8; and the window lies on the bus (log entry 9). -/
def Config.wellFormed (c : Config) : Bool :=
  decide (c.blockBase % 0x8000 = 0) && decide (15 ≤ c.hostAddrBits) &&
  decide (c.blockBase + 0x8000 ≤ 2 ^ c.hostAddrBits) &&
  decide (1029 ≤ c.fbufSize) && decide (c.fbufSize ≤ 4096) &&
  decide (5 ≤ c.allowN) && decide (c.allowN ≤ 8)

/-- A command word's RSVD field, bits [31:8], must be zero (30_encoding.md R80). -/
def commandWordReservedZero (w : Word) : Bool := w.extractLsb' 8 24 == 0#24

/-- A command word's OPCODE field, bits [7:0], is one of the map's (30_encoding.md R82). -/
def commandWordOpcodeAssigned (w : Word) : Bool :=
  let op := w.extractLsb' 0 8
  (decide (0x01#8 ≤ op) && decide (op ≤ 0x04#8)) || (decide (0x10#8 ≤ op) && decide (op ≤ 0x12#8))

/-- The two checks of a command word together (30_encoding.md R80, R81). -/
def commandWordWellFormed (w : Word) : Bool :=
  commandWordReservedZero w && commandWordOpcodeAssigned w

/-- Commands have no operand fields (30_encoding.md R80), so there is nothing in an `Instr` to be ill formed. -/
def Instr.wellFormed : Instr → Bool
  | .frameParse => true
  | .crcCheck => true
  | .msm7Decode => true
  | .frameDecode => true
  | .towFromUtc => true
  | .utcFromTow => true
  | .towCompare => true

end Sys2Proof
end

