-- ==== Sys2Proof/Decode.lean ====
section
/-! DEFINITION. The command word decoder and encoder (30_encoding.md R80 to R82). -/

namespace Sys2Proof

/-- Why a command word selects no command (30_encoding.md R81). -/
inductive DecodeError where
  /-- Bits [31:8] are not zero. -/
  | reservedBitsSet
  /-- Bits [31:8] are zero and bits [7:0] are no opcode of the map. -/
  | unassignedOpcode
  deriving DecidableEq, Repr

/-- One row of the opcode map: a word `w` is the row's when `w AND mask = pattern`. -/
structure OpcodeRow where
  pattern : Word
  mask : Word
  instr : Instr
  deriving DecidableEq, Repr

/-- The opcode map (30_encoding.md R82); the mask is 0xFFFFFFFF for every command (R81). -/
def opcodeMap : List OpcodeRow :=
  [ ⟨0x00000001#32, 0xFFFFFFFF#32, .frameParse⟩,
    ⟨0x00000002#32, 0xFFFFFFFF#32, .crcCheck⟩,
    ⟨0x00000003#32, 0xFFFFFFFF#32, .msm7Decode⟩,
    ⟨0x00000004#32, 0xFFFFFFFF#32, .frameDecode⟩,
    ⟨0x00000010#32, 0xFFFFFFFF#32, .towFromUtc⟩,
    ⟨0x00000011#32, 0xFFFFFFFF#32, .utcFromTow⟩,
    ⟨0x00000012#32, 0xFFFFFFFF#32, .towCompare⟩ ]

/-- The decoder: total on 32-bit words, rejecting by name (30_encoding.md R81). -/
def decode (w : Word) : Except DecodeError Instr :=
  match opcodeMap.find? (fun r => w &&& r.mask == r.pattern) with
  | some r => .ok r.instr
  | none => if commandWordReservedZero w then .error .unassignedOpcode else .error .reservedBitsSet

/-- The command word of a command: RSVD [31:8] zero, OPCODE [7:0] (30_encoding.md R80, R82). -/
def encode (i : Instr) : Word :=
  0#24 ++ (match i with
    | .frameParse => 0x01#8
    | .crcCheck => 0x02#8
    | .msm7Decode => 0x03#8
    | .frameDecode => 0x04#8
    | .towFromUtc => 0x10#8
    | .utcFromTow => 0x11#8
    | .towCompare => 0x12#8)

/-- The host's view of the decoder. A command word is one 32-bit value written to CMD (30_encoding.md R80): there is
no byte order in it. A value that needs more than 32 bits is no command word (log entry 12). -/
def decodeTableWord (nbits w : Nat) : Option Instr :=
  let v := w % 2 ^ nbits
  if v < 2 ^ 32 then (decode (BitVec.ofNat 32 v)).toOption else none

end Sys2Proof
end

