-- ==== Sys2Proof/Machine/State.lean ====
section
/-! DEFINITION. The state of an RFP block, the reasons a step can stop, and the state after reset. -/

namespace Sys2Proof.Machine

/-- Why the machine stops with a fault. -/
inductive Fault where
  /-- Raised by a host access that is not 32 bits wide at a mapped, 4-byte-aligned offset, or that writes an RO register
  (60_exceptions.md R184; 20_memory.md R62, R63). Carries the offset. Safe: the spec's own fault outcome. -/
  | busError (offset : Nat)
  /-- Raised by a host write to CMD, an RW register or FBUF while a command is pending (60_exceptions.md R185).
  Carries the offset. Safe: the hardware's effect is unspecified and the model gives it none. -/
  | hostHazard (offset : Nat)
  /-- Raised by a read, by host or engine, of an FBUF byte not written since reset (60_exceptions.md R186).
  Carries the FBUF index. Safe: the byte is unspecified and the model gives the read no result. -/
  | unwrittenRead (index : Nat)
  /-- Raised by a host access scheduled while the reset input is asserted: neither agent steps then
  (93_implementation_defined.md part 2, "stuck"; log entry 6). Safe: the model stops. -/
  | stuckInReset
  deriving DecidableEq, Repr

/-- Why the machine gives an instruction no meaning. -/
inductive Refusal where
  /-- Raised by an arm of `exec` whose instruction has no meaning yet; no arm of this model does. Safe. -/
  | notModelled (mnemonic : String)
  deriving DecidableEq, Repr

/-- Error kinds (60_exceptions.md R180). -/
inductive ErrKind where
  /-- Code 0. -/
  | noError
  /-- Code 1. -/
  | invalidPreamble
  /-- Code 2. -/
  | truncatedFrame
  /-- Code 3. -/
  | unsupportedMessageType
  /-- Code 4: reserved, never produced. -/
  | malformedHexToken
  /-- Code 5. -/
  | illegalCommand
  /-- Code 6. -/
  | domainError
  deriving DecidableEq, Repr

/-- Demux classes (10_state.md R36). -/
inductive DemuxClass where
  /-- Code 0: no frame parsed. -/
  | noFrame
  /-- Code 1. -/
  | msm7
  /-- Code 2. -/
  | generic
  /-- Code 3. -/
  | unrecognized
  deriving DecidableEq, Repr

/-- The three advisory bits of STATUS (10_state.md R27; 60_exceptions.md R182). -/
structure Advisories where
  /-- STATUS[8] ADV_CRC_MISMATCH. -/
  crcMismatch : Bool
  /-- STATUS[9] ADV_TIME_MISALIGNED. -/
  timeMisaligned : Bool
  /-- STATUS[10] ADV_TOW_RANGE. -/
  towRange : Bool
  deriving DecidableEq, Repr

/-- No advisory. -/
def Advisories.clear : Advisories := ⟨false, false, false⟩

/-- STATUS without BUSY, which is PENDING's other view (10_state.md R21, R27). -/
structure Status where
  /-- STATUS[1] DONE. -/
  done : Bool
  /-- STATUS[7:4] ERR. -/
  err : ErrKind
  /-- STATUS[10:8]. -/
  adv : Advisories
  /-- STATUS[23:16] LAST_OP. -/
  lastOp : BitVec 8
  deriving DecidableEq, Repr

/-- One allowlist entry (10_state.md R33): [31] EN, [11:0] NUM. -/
structure AllowEntry where
  en : Bool
  num : BitVec 12
  deriving DecidableEq, Repr

/-- Group F (10_state.md R34 to R39, R50). -/
structure FrameRegs where
  frmLen : BitVec 10
  msgnum : BitVec 12
  mnInPayload : Bool
  frmClass : DemuxClass
  frmPayload : BitVec 13
  frmNext : BitVec 13
  crcRecv : BitVec 24
  deriving DecidableEq, Repr

/-- Group F at reset and after a clear (10_state.md R50, R53). -/
def FrameRegs.zero : FrameRegs := ⟨0, 0, false, .noFrame, 0, 0, 0⟩

/-- Group C (10_state.md R40, R41, R50). -/
structure CrcRegs where
  crcCalc : BitVec 24
  checked : Bool
  matched : Bool
  deriving DecidableEq, Repr

/-- Group C at reset and after a clear (10_state.md R50, R53). -/
def CrcRegs.zero : CrcRegs := ⟨0, false, false⟩

/-- Group M (10_state.md R42 to R49, R50). -/
structure Msm7Regs where
  station : BitVec 12
  tow : BitVec 30
  sync : BitVec 1
  iod : BitVec 3
  times : BitVec 7
  clksteer : BitVec 2
  extclk : BitVec 2
  smooth : BitVec 2
  smint : BitVec 3
  nsat : BitVec 6
  nsig : BitVec 5
  cellHi : Word
  cellLo : Word
  satmaskHi : Word
  satmaskLo : Word
  sigmask : Word
  valid : Bool
  satNact : BitVec 7
  sigNact : BitVec 6
  satList : Vector (BitVec 7) 64
  sigList : Vector (BitVec 6) 32
  deriving DecidableEq, Repr

/-- Group M at reset and after a clear (10_state.md R50, R53). -/
def Msm7Regs.zero : Msm7Regs :=
  { station := 0, tow := 0, sync := 0, iod := 0, times := 0, clksteer := 0, extclk := 0, smooth := 0,
    smint := 0, nsat := 0, nsig := 0, cellHi := 0, cellLo := 0, satmaskHi := 0, satmaskLo := 0,
    sigmask := 0, valid := false, satNact := 0, sigNact := 0,
    satList := Vector.replicate 64 0, sigList := Vector.replicate 32 0 }

/-- Group G (10_state.md R32, R50). -/
structure TimeRegs where
  res0 : Word
  res1 : Word
  deriving DecidableEq, Repr

/-- Group G at reset and after a clear (10_state.md R50, R53). -/
def TimeRegs.zero : TimeRegs := ⟨0, 0⟩

/-- FBUF: its written bytes by index, indices rising (10_state.md R22). An index not listed has WRITTEN = false and no
value (70_reset_and_hazards.md R202; log entry 2). -/
abbrev Memory := List Host.Cell

/-- Widths a host may try (20_memory.md R62). -/
inductive AccessWidth where
  | w8
  | w16
  | w32
  | w64
  deriving DecidableEq, Repr

/-- One access the host makes on its bus, at a host address (20_memory.md R60, R62). -/
inductive HostAccess where
  | read (width : AccessWidth) (addr : Nat)
  | write (width : AccessWidth) (addr : Nat) (data : Word)
  deriving DecidableEq, Repr

/-- What reaches the block from outside, and which agent steps (10_state.md R20; 60_exceptions.md R189; log entry 3). -/
inductive Input where
  /-- The host performs this access now. -/
  | access (a : HostAccess)
  /-- The engine steps now, if a command is pending. -/
  | engineTurn
  /-- The reset input is asserted. -/
  | resetAssert
  /-- The reset input is released. -/
  | resetRelease
  deriving DecidableEq, Repr

/-- What an accepted host read returned. -/
structure BusReply where
  offset : Nat
  data : Word
  deriving DecidableEq, Repr

/-- Everything the spec gives the block (10_state.md), and the model's own bookkeeping of what is outside it. -/
structure State where
  /-- Build parameters; no step changes them (log entry 1). -/
  config : Config
  /-- What is still to come from outside, first first (log entry 3). -/
  inputs : List Input
  /-- What accepted reads returned, newest first (log entry 3). -/
  replies : List BusReply
  /-- How many free values have been drawn (log entry 4). -/
  draws : Nat
  /-- The reset input's level: true while asserted (70_reset_and_hazards.md R200). -/
  inReset : Bool
  /-- PENDING (10_state.md R21). -/
  pending : Option Word
  /-- CMD (10_state.md R26). -/
  cmd : Word
  /-- STATUS but for BUSY (10_state.md R27). -/
  status : Status
  /-- BUF_LEN (10_state.md R28). -/
  bufLen : BitVec 13
  /-- FRAME_BASE (10_state.md R29). -/
  frameBase : BitVec 12
  /-- LEAP_SECONDS (10_state.md R30). -/
  leapSeconds : Word
  /-- ARG0 (10_state.md R31). -/
  arg0 : Word
  /-- ARG1 (10_state.md R31). -/
  arg1 : Word
  /-- ARG2 (10_state.md R31). -/
  arg2 : Word
  /-- ALLOW0 .. ALLOW7 (10_state.md R33). -/
  allow : Vector AllowEntry 8
  /-- Group F. -/
  groupF : FrameRegs
  /-- Group C. -/
  groupC : CrcRegs
  /-- Group M. -/
  groupM : Msm7Regs
  /-- Group G. -/
  groupG : TimeRegs
  /-- FBUF and its WRITTEN tags. -/
  fbuf : Memory
  deriving DecidableEq, Repr

/-- The block right after reset (10_state.md R53; 70_reset_and_hazards.md R200 to R202), with nothing to come from
outside. -/
def State.reset : State :=
  { config := Config.standard
    inputs := []
    replies := []
    draws := 0
    inReset := false
    pending := none
    cmd := 0
    status := ⟨false, .noError, .clear, 0⟩
    bufLen := 0
    frameBase := 0
    leapSeconds := 0
    arg0 := 0
    arg1 := 0
    arg2 := 0
    allow := Vector.replicate 8 ⟨false, 0⟩
    groupF := .zero
    groupC := .zero
    groupM := .zero
    groupG := .zero
    fbuf := [] }

/-- The outcome type of every meaning and of `step`. -/
abbrev Result := Host.Outcome State Fault Refusal

end Sys2Proof.Machine
end

