-- ==== Sys2Proof/Machine/Flags.lean ====
section
/-! DEFINITION. The codes and flag computations of the STATUS word (10_state.md R27, R51). -/

namespace Sys2Proof.Machine

/-- The ERR code of an error kind (60_exceptions.md R180). -/
def ErrKind.code : ErrKind → BitVec 4
  | .noError => 0
  | .invalidPreamble => 1
  | .truncatedFrame => 2
  | .unsupportedMessageType => 3
  | .malformedHexToken => 4
  | .illegalCommand => 5
  | .domainError => 6

/-- The FRM_CLASS code of a demux class (10_state.md R36). -/
def DemuxClass.code : DemuxClass → BitVec 2
  | .noFrame => 0
  | .msm7 => 1
  | .generic => 2
  | .unrecognized => 3

/-- STATUS.BUSY is 1 exactly when PENDING is not none (10_state.md R21). -/
def State.busy (s : State) : Bool := s.pending.isSome

/-- The STATUS word (10_state.md R27): [31:24] 0, LAST_OP, [15:11] 0, ADV_TOW_RANGE, ADV_TIME_MISALIGNED,
ADV_CRC_MISMATCH, ERR, [3:2] 0, DONE, BUSY. -/
def State.statusWord (s : State) : Word :=
  (0#8 ++ s.status.lastOp ++ 0#5 ++ BitVec.ofBool s.status.adv.towRange ++
    BitVec.ofBool s.status.adv.timeMisaligned ++ BitVec.ofBool s.status.adv.crcMismatch ++
    s.status.err.code ++ 0#2 ++ BitVec.ofBool s.status.done ++ BitVec.ofBool s.busy : BitVec 32)

/-- Milliseconds in a GPS week, `WEEK_MS` (00_scope.md R5). -/
def weekMs : Nat := 604800000

/-- ADV_TOW_RANGE: the header's time of week is not below one week (42_msm7_reader.md R134). -/
def towOutOfRange (tow : BitVec 30) : Bool := decide (weekMs ≤ tow.toNat)

/-- CRC_STAT.MATCH (41_crc24q.md R122); ADV_CRC_MISMATCH is its negation. -/
def crcMatches (computed recv : BitVec 24) : Bool := computed == recv

/-- MISALIGNED and ADV_TIME_MISALIGNED: the difference exceeds the tolerance; the boundary is inclusive
(44_gps_time.md R167). -/
def timesMisaligned (delta tol : Nat) : Bool := decide (tol < delta)

end Sys2Proof.Machine
end

