-- ==== Sys2Proof/Machine/Ops.lean ====
section
/-! DEFINITION. The shared operations over FBUF and the registers: reading and writing a byte, latching and completing a
command, ending one with an error, clearing result groups, and reset. -/

namespace Sys2Proof.Machine

/-! ### FBUF -/

/-- The byte at an FBUF index, `none` while its WRITTEN tag is false (20_memory.md R66, R67). -/
def Memory.read : Memory → Nat → Option Byte
  | [], _ => none
  | (j, b) :: rest, i => if i = j then some b else Memory.read rest i

/-- Store a byte and set its WRITTEN tag (20_memory.md R65), keeping the indices rising. -/
def Memory.write : Memory → Nat → Byte → Memory
  | [], i, v => [(i, v)]
  | (j, b) :: rest, i, v =>
    if i < j then (i, v) :: (j, b) :: rest
    else if i = j then (i, v) :: rest
    else (j, b) :: Memory.write rest i v

/-- The canonical form: indices strictly rising. An unlisted index has no value, so no entry equals what one reads as. -/
abbrev Memory.wf (m : Memory) : Prop := m.Pairwise fun a b => a.1 < b.1

/-- Every listed index lies inside the buffer (10_state.md R22). -/
abbrev Memory.within (m : Memory) (size : Nat) : Prop := ∀ c ∈ m, c.1 < size

/-! ### Latching and completing a command -/

/-- The CMD write that starts a command (10_state.md R21, R26, R27): CMD and PENDING take the word; DONE, ERR and the ADV
bits clear; LAST_OP stays. -/
def latchCommand (w : Word) (s : State) : State :=
  { s with
    cmd := w
    pending := some w
    status := { s.status with done := false, err := .noError, adv := .clear } }

/-- Completion (10_state.md R21, R27): PENDING becomes none, DONE 1, LAST_OP the word's bits [7:0], ERR and the ADV bits
what the command set (log entry 11). -/
def completeCommand (op : BitVec 8) (e : ErrKind) (a : Advisories) (s : State) : State :=
  { s with
    pending := none
    status := { done := true, err := e, adv := a, lastOp := op } }

/-- Bits [7:0] of a command's word (10_state.md R27 LAST_OP). -/
def opcodeOf (i : Instr) : BitVec 8 := (encode i).extractLsb' 0 8

/-- A command that succeeds: ERR 0 and the advisories it set. -/
def succeed (i : Instr) (a : Advisories) (s : State) : Result :=
  .next (completeCommand (opcodeOf i) .noError a s)

/-- A command that raises an error: the block's only form of exception. It has no traps, saved state or handlers
(60_exceptions.md R191): the command completes with ERR set and the block is ready for the next (R181). -/
def raiseError (i : Instr) (e : ErrKind) (a : Advisories) (s : State) : Result :=
  .next (completeCommand (opcodeOf i) e a s)

/-- A word that selects no command (60_exceptions.md R183): ERR 5, no advisory, LAST_OP the word's bits [7:0], and no
result group touched. -/
def illegalCommand (w : Word) (s : State) : Result :=
  .next (completeCommand (w.extractLsb' 0 8) .illegalCommand .clear s)

/-! ### Result groups -/

/-- What every frame command does first (10_state.md R50; 40_frame_parser.md R112). -/
def clearFrameGroups (s : State) : State :=
  { s with groupF := .zero, groupC := .zero, groupM := .zero }

/-- What every time command does first (10_state.md R50). -/
def clearTimeGroup (s : State) : State := { s with groupG := .zero }

/-! ### Reset -/

/-- Every piece of the block's state takes its reset value (70_reset_and_hazards.md R200). What is outside the block
stays: the build, the inputs still to come, what the host has read, the draws, the level of the reset input. -/
def resetBlock (s : State) : State :=
  { State.reset with
    config := s.config
    inputs := s.inputs
    replies := s.replies
    draws := s.draws
    inReset := s.inReset }

end Sys2Proof.Machine
end

