-- ==== Sys2Proof/Machine/Bus.lean ====
section
/-! DEFINITION. The host's bus: the address map, register reads and writes, and the effect of one access
(20_memory.md R60 to R70; 60_exceptions.md R184 to R186, R189). -/

namespace Sys2Proof.Machine

/-- The host-visible registers (20_memory.md R61). -/
inductive Reg where
  | cmd
  | status
  | bufLen
  | frameBase
  | leapSeconds
  | arg0
  | arg1
  | arg2
  | res0
  | res1
  | allow (n : Fin 8)
  | frmLen
  | frmMsgnum
  | frmClass
  | frmPayload
  | frmNext
  | crcRecv
  | crcCalc
  | crcStat
  | m7Station
  | m7Tow
  | m7Sync
  | m7Iod
  | m7Times
  | m7Clksteer
  | m7Extclk
  | m7Smooth
  | m7Smint
  | m7Nsat
  | m7Nsig
  | m7CellHi
  | m7CellLo
  | m7SatmaskHi
  | m7SatmaskLo
  | m7Sigmask
  | m7Valid
  | m7SatNact
  | m7SigNact
  | satList (k : Fin 64)
  | sigList (k : Fin 32)
  | fbuf (i : Nat)
  deriving DecidableEq, Repr

/-- Control, configuration and time-result registers, by offset (20_memory.md R61). -/
def controlRegisters : List (Nat × Reg) :=
  [(0x000, .cmd), (0x004, .status), (0x008, .bufLen), (0x00C, .frameBase), (0x010, .leapSeconds),
   (0x014, .arg0), (0x018, .arg1), (0x01C, .arg2), (0x020, .res0), (0x024, .res1)]

/-- Groups F and C, by offset (20_memory.md R61). -/
def frameRegisters : List (Nat × Reg) :=
  [(0x080, .frmLen), (0x084, .frmMsgnum), (0x088, .frmClass), (0x08C, .frmPayload), (0x090, .frmNext),
   (0x094, .crcRecv), (0x098, .crcCalc), (0x09C, .crcStat)]

/-- Group M but for its lists, by offset (20_memory.md R61). -/
def headerRegisters : List (Nat × Reg) :=
  [(0x0C0, .m7Station), (0x0C4, .m7Tow), (0x0C8, .m7Sync), (0x0CC, .m7Iod), (0x0D0, .m7Times),
   (0x0D4, .m7Clksteer), (0x0D8, .m7Extclk), (0x0DC, .m7Smooth), (0x0E0, .m7Smint), (0x0E4, .m7Nsat),
   (0x0E8, .m7Nsig), (0x0EC, .m7CellHi), (0x0F0, .m7CellLo), (0x0F4, .m7SatmaskHi), (0x0F8, .m7SatmaskLo),
   (0x0FC, .m7Sigmask), (0x100, .m7Valid), (0x104, .m7SatNact), (0x108, .m7SigNact)]

/-- The single registers of the address map, by offset (20_memory.md R61). -/
def singleRegisters : List (Nat × Reg) := controlRegisters ++ frameRegisters ++ headerRegisters

/-- The register at a window offset, `none` where the offset is not a multiple of 4 or not mapped (20_memory.md R61,
R62). ALLOW entries the build lacks are unmapped (10_state.md R33), and so are FBUF indices from FBUF_SIZE on. -/
def regAt (c : Config) (off : Nat) : Option Reg :=
  if off % 4 ≠ 0 then none
  else if 0x1000 ≤ off then
    if (off - 0x1000) / 4 < c.fbufSize then some (.fbuf ((off - 0x1000) / 4)) else none
  else if 0x300 ≤ off then
    if h : (off - 0x300) / 4 < 32 then some (.sigList ⟨(off - 0x300) / 4, h⟩) else none
  else if 0x200 ≤ off then
    if h : (off - 0x200) / 4 < 64 then some (.satList ⟨(off - 0x200) / 4, h⟩) else none
  else if 0x040 ≤ off ∧ off < 0x060 then
    if h : (off - 0x040) / 4 < 8 then
      if (off - 0x040) / 4 < c.allowN then some (.allow ⟨(off - 0x040) / 4, h⟩) else none
    else none
  else singleRegisters.lookup off

/-- The RW registers, CMD among them, and FBUF; every other register is RO (10_state.md R25; 20_memory.md R61). -/
def Reg.writable : Reg → Bool
  | .cmd => true
  | .bufLen => true
  | .frameBase => true
  | .leapSeconds => true
  | .arg0 => true
  | .arg1 => true
  | .arg2 => true
  | .allow _ => true
  | .fbuf _ => true
  | _ => false

/-- A register's named field bits; every other bit is reserved and reads 0 (10_state.md R25 to R49; 20_memory.md R66). -/
def Reg.fieldMask : Reg → Word
  | .cmd => 0xFFFFFFFF#32
  | .status => 0x00FF07F3#32
  | .bufLen => 0x00001FFF#32
  | .frameBase => 0x00000FFF#32
  | .leapSeconds => 0xFFFFFFFF#32
  | .arg0 => 0xFFFFFFFF#32
  | .arg1 => 0xFFFFFFFF#32
  | .arg2 => 0xFFFFFFFF#32
  | .res0 => 0xFFFFFFFF#32
  | .res1 => 0xFFFFFFFF#32
  | .allow _ => 0x80000FFF#32
  | .frmLen => 0x000003FF#32
  | .frmMsgnum => 0x00010FFF#32
  | .frmClass => 0x00000003#32
  | .frmPayload => 0x00001FFF#32
  | .frmNext => 0x00001FFF#32
  | .crcRecv => 0x00FFFFFF#32
  | .crcCalc => 0x00FFFFFF#32
  | .crcStat => 0x00000003#32
  | .m7Station => 0x00000FFF#32
  | .m7Tow => 0x3FFFFFFF#32
  | .m7Sync => 0x00000001#32
  | .m7Iod => 0x00000007#32
  | .m7Times => 0x0000007F#32
  | .m7Clksteer => 0x00000003#32
  | .m7Extclk => 0x00000003#32
  | .m7Smooth => 0x00000003#32
  | .m7Smint => 0x00000007#32
  | .m7Nsat => 0x0000003F#32
  | .m7Nsig => 0x0000001F#32
  | .m7CellHi => 0xFFFFFFFF#32
  | .m7CellLo => 0xFFFFFFFF#32
  | .m7SatmaskHi => 0xFFFFFFFF#32
  | .m7SatmaskLo => 0xFFFFFFFF#32
  | .m7Sigmask => 0xFFFFFFFF#32
  | .m7Valid => 0x00000001#32
  | .m7SatNact => 0x0000007F#32
  | .m7SigNact => 0x0000003F#32
  | .satList _ => 0x0000007F#32
  | .sigList _ => 0x0000003F#32
  | .fbuf _ => 0x000000FF#32

/-- A register's value as a 32-bit word; `none` only for an FBUF byte whose WRITTEN tag is false (20_memory.md R63, R66;
10_state.md R26 to R49). -/
def readReg (s : State) : Reg → Option Word
  | .cmd => some s.cmd
  | .status => some s.statusWord
  | .bufLen => some (s.bufLen.setWidth 32)
  | .frameBase => some (s.frameBase.setWidth 32)
  | .leapSeconds => some s.leapSeconds
  | .arg0 => some s.arg0
  | .arg1 => some s.arg1
  | .arg2 => some s.arg2
  | .res0 => some s.groupG.res0
  | .res1 => some s.groupG.res1
  | .allow n => some (BitVec.ofBool (s.allow.get n).en ++ 0#19 ++ (s.allow.get n).num)
  | .frmLen => some (s.groupF.frmLen.setWidth 32)
  | .frmMsgnum => some (0#15 ++ BitVec.ofBool s.groupF.mnInPayload ++ 0#4 ++ s.groupF.msgnum)
  | .frmClass => some (s.groupF.frmClass.code.setWidth 32)
  | .frmPayload => some (s.groupF.frmPayload.setWidth 32)
  | .frmNext => some (s.groupF.frmNext.setWidth 32)
  | .crcRecv => some (s.groupF.crcRecv.setWidth 32)
  | .crcCalc => some (s.groupC.crcCalc.setWidth 32)
  | .crcStat => some (0#30 ++ BitVec.ofBool s.groupC.matched ++ BitVec.ofBool s.groupC.checked)
  | .m7Station => some (s.groupM.station.setWidth 32)
  | .m7Tow => some (s.groupM.tow.setWidth 32)
  | .m7Sync => some (s.groupM.sync.setWidth 32)
  | .m7Iod => some (s.groupM.iod.setWidth 32)
  | .m7Times => some (s.groupM.times.setWidth 32)
  | .m7Clksteer => some (s.groupM.clksteer.setWidth 32)
  | .m7Extclk => some (s.groupM.extclk.setWidth 32)
  | .m7Smooth => some (s.groupM.smooth.setWidth 32)
  | .m7Smint => some (s.groupM.smint.setWidth 32)
  | .m7Nsat => some (s.groupM.nsat.setWidth 32)
  | .m7Nsig => some (s.groupM.nsig.setWidth 32)
  | .m7CellHi => some s.groupM.cellHi
  | .m7CellLo => some s.groupM.cellLo
  | .m7SatmaskHi => some s.groupM.satmaskHi
  | .m7SatmaskLo => some s.groupM.satmaskLo
  | .m7Sigmask => some s.groupM.sigmask
  | .m7Valid => some (0#31 ++ BitVec.ofBool s.groupM.valid)
  | .m7SatNact => some (s.groupM.satNact.setWidth 32)
  | .m7SigNact => some (s.groupM.sigNact.setWidth 32)
  | .satList k => some ((s.groupM.satList.get k).setWidth 32)
  | .sigList k => some ((s.groupM.sigList.get k).setWidth 32)
  | .fbuf i => (s.fbuf.read i).map (BitVec.setWidth 32)

/-- BUF_LEN is WARL: it takes `min(v[12:0], FBUF_SIZE)` (10_state.md R28). -/
def bufLenOf (c : Config) (v : Word) : BitVec 13 :=
  BitVec.ofNat 13 (min (v.extractLsb' 0 13).toNat c.fbufSize)

/-- The effect of an accepted write with no command pending (10_state.md R25 to R33; 20_memory.md R65, R70). An RO
register is never written. -/
def writeReg (s : State) (r : Reg) (v : Word) : State :=
  match r with
  | .cmd => latchCommand v s
  | .bufLen => { s with bufLen := bufLenOf s.config v }
  | .frameBase => { s with frameBase := v.extractLsb' 0 12 }
  | .leapSeconds => { s with leapSeconds := v }
  | .arg0 => { s with arg0 := v }
  | .arg1 => { s with arg1 := v }
  | .arg2 => { s with arg2 := v }
  | .allow n => { s with allow := s.allow.set n.val ⟨v.getLsbD 31, v.extractLsb' 0 12⟩ }
  | .fbuf i => { s with fbuf := s.fbuf.write i (v.extractLsb' 0 8) }
  | _ => s

/-- What the host's read of a register answers, and the state after it: the value joins the replies. -/
def reply (off : Nat) (v : Word) (s : State) : Result :=
  .next { s with replies := ⟨off, v⟩ :: s.replies }

/-- An accepted read while a command is pending (20_memory.md R64): STATUS and CMD are defined, any other register gives
a free value with its reserved bits 0 (log entry 4). -/
def readWhilePending (off : Nat) (r : Reg) (s : State) : Result :=
  match r with
  | .status => reply off s.statusWord s
  | .cmd => reply off s.cmd s
  | r => reply off (Config.busyReadDraw s.draws &&& r.fieldMask) { s with draws := s.draws + 1 }

/-- A read of a mapped register (20_memory.md R63, R64, R66). -/
def hostRead (off : Nat) (r : Reg) (s : State) : Result :=
  if s.busy then readWhilePending off r s
  else
    match readReg s r, r with
    | some v, _ => reply off v s
    | none, .fbuf i => .fault (.unwrittenRead i)
    | none, _ => .fault (.busError off)

/-- A write to a mapped register: RO first, then pending (60_exceptions.md R189; 20_memory.md R63, R64). -/
def hostWrite (off : Nat) (r : Reg) (v : Word) (s : State) : Result :=
  if !r.writable then .fault (.busError off)
  else if s.busy then .fault (.hostHazard off)
  else .next (writeReg s r v)

/-- The host address of an access. -/
def HostAccess.addr : HostAccess → Nat
  | .read _ a => a
  | .write _ a _ => a

/-- The width of an access. -/
def HostAccess.width : HostAccess → AccessWidth
  | .read w _ => w
  | .write w _ _ => w

/-- The window offset an address selects, `none` where it selects another device: the bus carries HOST_ADDR_BITS bits,
BLOCK_BASE is a multiple of 0x8000 and the block decodes offset bits [14:0] (00_scope.md R5; 20_memory.md R60; log
entries 8, 9). -/
def windowOffset (c : Config) (addr : Nat) : Option Nat :=
  let a := addr % 2 ^ c.hostAddrBits
  if c.blockBase ≤ a ∧ a < c.blockBase + 0x8000 then some (a - c.blockBase) else none

/-- An access that has reached the block at an offset: width, alignment and mapping come first
(60_exceptions.md R189; 20_memory.md R62). -/
def accessAt (off : Nat) (a : HostAccess) (s : State) : Result :=
  if a.width ≠ .w32 then .fault (.busError off)
  else
    match regAt s.config off with
    | none => .fault (.busError off)
    | some r =>
      match a with
      | .read _ _ => hostRead off r s
      | .write _ _ v => hostWrite off r v s

/-- One host access (10_state.md R20). One that selects another device does not reach the block (log entry 8). -/
def hostAccess (a : HostAccess) (s : State) : Result :=
  match windowOffset s.config a.addr with
  | none => .next s
  | some off => accessAt off a s

end Sys2Proof.Machine
end

