-- ==== Sys2Proof/Machine/Operands.lean ====
section
/-! DEFINITION. How a command reads its operands: FBUF bytes and bits through FRAME_BASE, and the formats of the time
commands' registers (00_scope.md R7 to R9; 20_memory.md R67; 30_encoding.md R83, R87). -/

namespace Sys2Proof.Machine

/-- What ends a command's procedure early. -/
inductive EngineStop where
  /-- `raise Err(E)` (00_scope.md R9). -/
  | raised (e : ErrKind)
  /-- The engine read an unwritten FBUF byte: `fault UnwrittenRead(i)` (20_memory.md R67). -/
  | unwritten (i : Nat)
  deriving DecidableEq, Repr

/-- A procedure of the engine: a value, or what ended it. -/
abbrev Engine (α : Type) := Except EngineStop α

/-- `raise Err(E)`. -/
def raise {α : Type} (e : ErrKind) : Engine α := .error (.raised e)

/-- `FB(i)` (20_memory.md R67). -/
def fb (s : State) (i : Nat) : Engine Byte :=
  match s.fbuf.read i with
  | some b => .ok b
  | none => .error (.unwritten i)

/-- `F(k) = FB(FRAME_BASE + k)` (00_scope.md R9). -/
def frameByte (s : State) (k : Nat) : Engine Byte := fb s (s.frameBase.toNat + k)

/-- Frame bit k is bit `7 - (k mod 8)` of `F(k div 8)` (00_scope.md R7). -/
def frameBit (s : State) (k : Nat) : Engine Bool := do
  let b ← frameByte s (k / 8)
  return b.getLsbD (7 - k % 8)

/-- The value of `w` stream bits from bit `k`, most significant first (00_scope.md R8). -/
def readBitsNat (s : State) (k : Nat) : Nat → Engine Nat
  | 0 => return 0
  | w + 1 => do
    let v ← readBitsNat s k w
    let b ← frameBit s (k + w)
    return 2 * v + b.toNat

/-- `ReadBits(k, w)` (00_scope.md R8). -/
def readBits (s : State) (k w : Nat) : Engine (BitVec w) := do
  let v ← readBitsNat s k w
  return BitVec.ofNat w v

/-- The bytes `F(k) .. F(k + n - 1)`, read in that order. -/
def frameBytes (s : State) (k : Nat) : Nat → Engine (List Byte)
  | 0 => return []
  | n + 1 => do
    let b ← frameByte s k
    let bs ← frameBytes s (k + 1) n
    return b :: bs

/-- Bytes from FRAME_BASE up to BUF_LEN (40_frame_parser.md R101). -/
def availableBytes (s : State) : Nat := s.bufLen.toNat - s.frameBase.toNat

/-- `(F(1) ++ F(2))[9:0]` (40_frame_parser.md R104). -/
def lengthField (f1 f2 : Byte) : BitVec 10 := (f1 ++ f2).extractLsb' 0 10

/-! ### Formats of the time commands (30_encoding.md R87) -/

/-- DATE [31:16]. -/
def dateYear (w : Word) : Nat := (w.extractLsb' 16 16).toNat
/-- DATE [15:8]. -/
def dateMonth (w : Word) : Nat := (w.extractLsb' 8 8).toNat
/-- DATE [7:0]. -/
def dateDay (w : Word) : Nat := (w.extractLsb' 0 8).toNat

/-- A DATE word from its fields. -/
def dateWord (y m d : Nat) : Word := BitVec.ofNat 16 y ++ BitVec.ofNat 8 m ++ BitVec.ofNat 8 d

/-- `sint(LEAP_SECONDS)` (10_state.md R30; 00_scope.md R6). -/
def leapOffset (s : State) : Int := s.leapSeconds.toInt

end Sys2Proof.Machine
end

