-- ==== Sys2Proof/Machine/Frame.lean ====
section
/-! DEFINITION. ParseFrame, the message-number demux and FRAME_PARSE (40_frame_parser.md). -/

namespace Sys2Proof.Machine

/-- `MSM7_MSGNUM` (00_scope.md R5). -/
def msm7Msgnum : BitVec 12 := 1077#12

/-- `Allowed(mn)` (40_frame_parser.md R108), over the entries the build has (10_state.md R33). -/
def allowed (s : State) (mn : BitVec 12) : Bool :=
  (s.allow.toList.take s.config.allowN).any fun e => e.en && e.num == mn

/-- `Demux(mn, inpay)` (40_frame_parser.md R108). -/
def demux (s : State) (mn : BitVec 12) (inpay : Bool) : DemuxClass :=
  if !inpay then .unrecognized
  else if !allowed s mn then .unrecognized
  else if mn = msm7Msgnum then .msm7
  else .generic

/-- `ParseFrame` (40_frame_parser.md R100). It answers what group F is to hold; the command writes it, so that a
failure writes nothing. The bytes are read in the order of R100. -/
def parseFrame (s : State) : Engine FrameRegs :=
  if availableBytes s < 6 then raise .truncatedFrame
  else do
    let f0 ← frameByte s 0
    if f0 ≠ s.config.preamble then raise .invalidPreamble
    else do
      let f1 ← frameByte s 1
      let f2 ← frameByte s 2
      let len := lengthField f1 f2
      if availableBytes s < len.toNat + 6 then raise .truncatedFrame
      else do
        let mn ← readBits s 24 12
        let inpay := decide (2 ≤ len.toNat)
        let c0 ← frameByte s (len.toNat + 3)
        let c1 ← frameByte s (len.toNat + 4)
        let c2 ← frameByte s (len.toNat + 5)
        return {
          frmLen := len
          msgnum := mn
          mnInPayload := inpay
          frmClass := demux s mn inpay
          frmPayload := BitVec.ofNat 13 (s.frameBase.toNat + 3)
          frmNext := BitVec.ofNat 13 (s.frameBase.toNat + len.toNat + 6)
          crcRecv := c0 ++ c1 ++ c2 }

/-- The outcome of a command whose procedure ended early, with the advisories set so far: an error completes
(60_exceptions.md R181), an unwritten read is a fault (R186). -/
def stopCommand (i : Instr) (a : Advisories) (s : State) : EngineStop → Result
  | .raised e => raiseError i e a s
  | .unwritten k => .fault (.unwrittenRead k)

/-- The start every frame command shares: clear groups F, C and M, then ParseFrame, then write group F
(40_frame_parser.md R100, R112); `rest` is what the command does with the parsed frame. -/
def withParsedFrame (i : Instr) (s : State) (rest : FrameRegs → State → Result) : Result :=
  match parseFrame (clearFrameGroups s) with
  | .error stop => stopCommand i .clear (clearFrameGroups s) stop
  | .ok f => rest f { clearFrameGroups s with groupF := f }

/-- FRAME_PARSE (40_frame_parser.md R111). -/
def execFrameParse (s : State) : Result :=
  withParsedFrame .frameParse s fun _ t => succeed .frameParse .clear t

end Sys2Proof.Machine
end

