-- ==== Sys2Proof/Machine/Crc.lean ====
section
/-! DEFINITION. CRC-24Q and CRC_CHECK (41_crc24q.md). -/

namespace Sys2Proof.Machine

/-- `CRC_POLY`, the 25-bit form (00_scope.md R5). -/
def crcPoly : BitVec 25 := 0x1864CFB#25

/-- One single-bit step of the 25-bit accumulator (41_crc24q.md R120). -/
def crcBitStep (acc : BitVec 25) : BitVec 25 :=
  let acc := acc <<< 1
  let acc := if acc.getLsbD 24 then acc ^^^ crcPoly else acc
  acc &&& 0xFFFFFF#25

/-- One byte: XOR it into bits 23..16, then eight single-bit steps (41_crc24q.md R120). -/
def crcByteStep (acc : BitVec 25) (b : Byte) : BitVec 25 :=
  Nat.iterate crcBitStep 8 (acc ^^^ (b.setWidth 25 <<< 16))

/-- CRC-24Q of a byte string, initial value 0 (41_crc24q.md R120). -/
def crc24q (bytes : List Byte) : BitVec 24 :=
  (bytes.foldl crcByteStep 0#25).setWidth 24

/-- `Crc24Q(n)` over `F(0) .. F(n-1)` (41_crc24q.md R120). -/
def frameCrc (s : State) (n : Nat) : Engine (BitVec 24) := do
  let bytes ← frameBytes s 0 n
  return crc24q bytes

/-- What group C holds after the comparison (41_crc24q.md R122). -/
def compareCrc (computed recv : BitVec 24) : CrcRegs :=
  { crcCalc := computed, checked := true, matched := crcMatches computed recv }

/-- The advisory the comparison sets (41_crc24q.md R122). -/
def crcAdvisory (computed recv : BitVec 24) : Advisories :=
  { Advisories.clear with crcMismatch := !crcMatches computed recv }

/-- The CRC stage of CRC_CHECK and FRAME_DECODE: compute over L + 3 bytes (41_crc24q.md R121), compare, write group C;
`rest` is what the command does next, given the advisory. -/
def withFrameCrc (i : Instr) (f : FrameRegs) (s : State) (rest : Advisories → State → Result) : Result :=
  match frameCrc s (f.frmLen.toNat + 3) with
  | .error stop => stopCommand i .clear s stop
  | .ok c => rest (crcAdvisory c f.crcRecv) { s with groupC := compareCrc c f.crcRecv }

/-- CRC_CHECK (41_crc24q.md R123). -/
def execCrcCheck (s : State) : Result :=
  withParsedFrame .crcCheck s fun f t =>
    withFrameCrc .crcCheck f t fun a u => succeed .crcCheck a u

end Sys2Proof.Machine
end

