-- ==== Sys2Proof/Machine/Msm7.lean ====
section
/-! DEFINITION. The MSM7 header reader, the bitmask extractor and MSM7_DECODE (42_msm7_reader.md). -/

namespace Sys2Proof.Machine

/-- The fourteen fields in read order (30_encoding.md R85). -/
structure Msm7Header where
  stationId : BitVec 12
  timeOfWeekMs : BitVec 30
  syncFlag : BitVec 1
  issueOfData : BitVec 3
  timeS : BitVec 7
  clockSteering : BitVec 2
  externalClock : BitVec 2
  smoothingIndicator : BitVec 2
  smoothingIntervalS : BitVec 3
  satelliteCount : BitVec 6
  signalCount : BitVec 5
  cellMask : BitVec 64
  satelliteMask : BitVec 64
  signalMask : BitVec 32
  deriving DecidableEq, Repr

/-- One field read at frame bit `pos`: it must end by `lim`, the first frame bit after the payload
(42_msm7_reader.md R130, R131). -/
def cursorRead (s : State) (lim pos w : Nat) : Engine (BitVec w) :=
  if lim < pos + w then raise .truncatedFrame else readBits s pos w

/-- `ReadMsm7(L)` (42_msm7_reader.md R131); the positions are the frame bits of 30_encoding.md R85. -/
def readMsm7 (s : State) (len : Nat) : Engine Msm7Header := do
  let lim := 24 + 8 * len
  let stationId ← cursorRead s lim 36 12
  let timeOfWeekMs ← cursorRead s lim 48 30
  let syncFlag ← cursorRead s lim 78 1
  let issueOfData ← cursorRead s lim 79 3
  let timeS ← cursorRead s lim 82 7
  let clockSteering ← cursorRead s lim 89 2
  let externalClock ← cursorRead s lim 91 2
  let smoothingIndicator ← cursorRead s lim 93 2
  let smoothingIntervalS ← cursorRead s lim 95 3
  let satelliteCount ← cursorRead s lim 98 6
  let signalCount ← cursorRead s lim 104 5
  let cellMask ← cursorRead s lim 109 64
  let satelliteMask ← cursorRead s lim 173 64
  let signalMask ← cursorRead s lim 237 32
  return { stationId, timeOfWeekMs, syncFlag, issueOfData, timeS, clockSteering, externalClock,
           smoothingIndicator, smoothingIntervalS, satelliteCount, signalCount, cellMask,
           satelliteMask, signalMask }

/-- The active indices of an n-bit mask, rising: index i (1..n) is active when bit n - i is 1 (30_encoding.md R86). -/
def activeIndices {n : Nat} (mask : BitVec n) : List Nat :=
  ((List.range n).map (· + 1)).filter fun i => mask.getLsbD (n - i)

/-- An index list as registers: entry k holds the (k+1)-th index, entries past the count hold 0
(42_msm7_reader.md R136). -/
def indexRegisters (w n : Nat) (l : List Nat) : Vector (BitVec w) n :=
  Vector.ofFn fun k => BitVec.ofNat w (l.getD k.val 0)

/-- What group M holds for a header (42_msm7_reader.md R133, R136). -/
def msm7Registers (v : Msm7Header) : Msm7Regs :=
  { station := v.stationId
    tow := v.timeOfWeekMs
    sync := v.syncFlag
    iod := v.issueOfData
    times := v.timeS
    clksteer := v.clockSteering
    extclk := v.externalClock
    smooth := v.smoothingIndicator
    smint := v.smoothingIntervalS
    nsat := v.satelliteCount
    nsig := v.signalCount
    cellHi := v.cellMask.extractLsb' 32 32
    cellLo := v.cellMask.extractLsb' 0 32
    satmaskHi := v.satelliteMask.extractLsb' 32 32
    satmaskLo := v.satelliteMask.extractLsb' 0 32
    sigmask := v.signalMask
    valid := true
    satNact := BitVec.ofNat 7 (activeIndices v.satelliteMask).length
    sigNact := BitVec.ofNat 6 (activeIndices v.signalMask).length
    satList := indexRegisters 7 64 (activeIndices v.satelliteMask)
    sigList := indexRegisters 6 32 (activeIndices v.signalMask) }

/-- The MSM7 stage of MSM7_DECODE and FRAME_DECODE: read the header, write group M all at once, set ADV_TOW_RANGE beside
the advisories `a` set before it (42_msm7_reader.md R131, R133, R134; 43_frame_decode.md R152). -/
def decodeMsm7Header (i : Instr) (a : Advisories) (f : FrameRegs) (s : State) : Result :=
  match readMsm7 s f.frmLen.toNat with
  | .error stop => stopCommand i a s stop
  | .ok v =>
    succeed i { a with towRange := towOutOfRange v.timeOfWeekMs } { s with groupM := msm7Registers v }

/-- MSM7_DECODE (42_msm7_reader.md R137), with the gate of R132. -/
def execMsm7Decode (s : State) : Result :=
  withParsedFrame .msm7Decode s fun f t =>
    if f.msgnum = msm7Msgnum ∧ f.mnInPayload = true then decodeMsm7Header .msm7Decode .clear f t
    else raiseError .msm7Decode .unsupportedMessageType .clear t

end Sys2Proof.Machine
end

