-- ==== Sys2Proof/Machine/Pipeline.lean ====
section
/-! DEFINITION. FRAME_DECODE, the frame decode pipeline (43_frame_decode.md). -/

namespace Sys2Proof.Machine

/-- FRAME_DECODE (43_frame_decode.md R150): parse, check the CRC, and for class MSM7 read the header whatever the CRC
result (R151, R152). -/
def execFrameDecode (s : State) : Result :=
  withParsedFrame .frameDecode s fun f t =>
    withFrameCrc .frameDecode f t fun a u =>
      match f.frmClass with
      | .msm7 => decodeMsm7Header .frameDecode a f u
      | .generic => succeed .frameDecode a u
      | .unrecognized => succeed .frameDecode a u
      | .noFrame => succeed .frameDecode a u

end Sys2Proof.Machine
end

