-- ==== Sys2Proof/Machine/Time.lean ====
section
/-! DEFINITION. The calendar and the three time commands (44_gps_time.md). All arithmetic is exact on `Int`; `/` and `%`
by a positive divisor are floor division and its remainder (00_scope.md R6). -/

namespace Sys2Proof.Machine

/-- `DAY_MS` (00_scope.md R5). -/
def dayMs : Nat := 86400000

/-- `DaysFromCivil(y, m, d)` (44_gps_time.md R160). -/
def daysFromCivil (y m d : Int) : Int :=
  let y' := y - (if m ≤ 2 then 1 else 0)
  let era := y' / 400
  let yoe := y' - 400 * era
  let mp := (m + 9) % 12
  let doy := (153 * mp + 2) / 5 + d - 1
  let doe := 365 * yoe + yoe / 4 - yoe / 100 + doy
  146097 * era + doe - 719468

/-- `CivilFromDays(z)` as (year, month, day) (44_gps_time.md R161). -/
def civilFromDays (z : Int) : Int × Int × Int :=
  let z := z + 719468
  let era := z / 146097
  let doe := z - 146097 * era
  let yoe := (doe - doe / 1460 + doe / 36524 - doe / 146096) / 365
  let doy := doe - (365 * yoe + yoe / 4 - yoe / 100)
  let mp := (5 * doy + 2) / 153
  let d := doy - (153 * mp + 2) / 5 + 1
  let m := if mp < 10 then mp + 3 else mp - 9
  let y := yoe + 400 * era + (if m ≤ 2 then 1 else 0)
  (y, m, d)

/-- `EPOCH_DAYS = DaysFromCivil(1980, 1, 6)` (44_gps_time.md R160). -/
def epochDays : Int := daysFromCivil 1980 1 6

/-- The leap-year rule (44_gps_time.md R162). -/
def isLeapYear (y : Nat) : Bool := (y % 4 == 0 && y % 100 != 0) || y % 400 == 0

/-- `DaysInMonth(y, m)` (44_gps_time.md R162), 0 for a number that is no month. -/
def daysInMonth (y m : Nat) : Nat :=
  if m = 1 ∨ m = 3 ∨ m = 5 ∨ m = 7 ∨ m = 8 ∨ m = 10 ∨ m = 12 then 31
  else if m = 4 ∨ m = 6 ∨ m = 9 ∨ m = 11 then 30
  else if m = 2 then (if isLeapYear y then 29 else 28)
  else 0

/-- `ValidDate(y, m, d)` (44_gps_time.md R162). -/
def validDate (y m d : Nat) : Bool :=
  decide (1 ≤ m) && decide (m ≤ 12) && decide (1 ≤ d) && decide (d ≤ daysInMonth y m) &&
  decide (epochDays ≤ daysFromCivil y m d)

/-- GPS milliseconds since the epoch of a UTC date and time of day (44_gps_time.md R163 `total`). -/
def gpsTotalMs (s : State) : Int :=
  (daysFromCivil (dateYear s.arg0) (dateMonth s.arg0) (dateDay s.arg0) - epochDays) * dayMs
    + s.arg1.toNat + leapOffset s * 1000

/-- UTC milliseconds since the epoch of a GPS week and time of week (44_gps_time.md R165 `e`). -/
def utcElapsedMs (s : State) : Int :=
  (s.arg0.toNat : Int) * weekMs + s.arg1.toNat - leapOffset s * 1000

/-- TOW_FROM_UTC (44_gps_time.md R163); the checks in the order of 60_exceptions.md R188. -/
def execTowFromUtc (s : State) : Result :=
  let c := clearTimeGroup s
  if !validDate (dateYear s.arg0) (dateMonth s.arg0) (dateDay s.arg0) || decide (dayMs ≤ s.arg1.toNat) then
    raiseError .towFromUtc .domainError .clear c
  else
    let total := gpsTotalMs s
    if total < 0 then raiseError .towFromUtc .domainError .clear c
    else
      succeed .towFromUtc .clear
        { c with groupG := ⟨BitVec.ofInt 32 (total / weekMs), BitVec.ofInt 32 (total % weekMs)⟩ }

/-- UTC_FROM_TOW (44_gps_time.md R165); the checks in the order of 60_exceptions.md R188. -/
def execUtcFromTow (s : State) : Result :=
  let c := clearTimeGroup s
  if weekMs ≤ s.arg1.toNat then raiseError .utcFromTow .domainError .clear c
  else
    let e := utcElapsedMs s
    if e < 0 then raiseError .utcFromTow .domainError .clear c
    else
      let date := civilFromDays (e / dayMs + epochDays)
      if 65535 < date.1 then raiseError .utcFromTow .domainError .clear c
      else
        succeed .utcFromTow .clear
          { c with groupG :=
              ⟨dateWord date.1.toNat date.2.1.toNat date.2.2.toNat, BitVec.ofInt 32 (e % dayMs)⟩ }

/-- The exact absolute difference of two 32-bit values (44_gps_time.md R167). -/
def absDifference (a b : Word) : Nat := ((a.toNat : Int) - b.toNat).natAbs

/-- TOW_COMPARE (44_gps_time.md R167). -/
def execTowCompare (s : State) : Result :=
  let delta := absDifference s.arg0 s.arg1
  let mis := timesMisaligned delta s.arg2.toNat
  succeed .towCompare { Advisories.clear with timeMisaligned := mis }
    { clearTimeGroup s with groupG := ⟨BitVec.ofNat 32 delta, if mis then 1 else 0⟩ }

end Sys2Proof.Machine
end

