-- ==== Sys2Proof/Machine/Dispatch.lean ====
section
/-! DEFINITION. One arm per command: each calls its meaning. -/

namespace Sys2Proof.Machine

def exec (i : Instr) (s : State) : Host.Outcome State Fault Refusal :=
  match i with
  | .frameParse => Sys2Proof.Machine.execFrameParse s
  | .crcCheck => Sys2Proof.Machine.execCrcCheck s
  | .msm7Decode => Sys2Proof.Machine.execMsm7Decode s
  | .frameDecode => Sys2Proof.Machine.execFrameDecode s
  | .towFromUtc => Sys2Proof.Machine.execTowFromUtc s
  | .utcFromTow => Sys2Proof.Machine.execUtcFromTow s
  | .towCompare => Sys2Proof.Machine.execTowCompare s

end Sys2Proof.Machine
end

