-- ==== Sys2Proof/Machine/Engine.lean ====
section
/-! DEFINITION. One step of the engine, of the reset input and of the host, as `step` calls them
(10_state.md R20, R21; 70_reset_and_hazards.md R200, R208). -/

namespace Sys2Proof.Machine

/-- Execute a command word: the command it selects, or IllegalCommand (30_encoding.md R81). -/
def runCommandWord (w : Word) (s : State) : Result :=
  match decode w with
  | .ok i => exec i s
  | .error _ => illegalCommand w s

/-- The engine's step: enabled exactly while a command is pending, it executes the whole command (10_state.md R21). With
nothing pending the block is idle and nothing changes (log entry 7). -/
def engineStep (s : State) : Result :=
  match s.pending with
  | none => .next s
  | some w => runCommandWord w s

/-- The reset input is asserted: the block takes its reset state and is held there (70_reset_and_hazards.md R200). -/
def assertReset (s : State) : State := { resetBlock s with inReset := true }

/-- The reset input is released: the block is in its reset state and ready (70_reset_and_hazards.md R200, R201). A
release of an input that is not asserted changes nothing. -/
def releaseReset (s : State) : State :=
  if s.inReset then { resetBlock s with inReset := false } else s

/-- One input while reset is asserted: neither agent steps (93_implementation_defined.md part 2; log entry 6). -/
def heldStep (input : Input) (s : State) : Result :=
  match input with
  | .access _ => .fault .stuckInReset
  | .engineTurn => .next s
  | .resetAssert => .next (assertReset s)
  | .resetRelease => .next (releaseReset s)

/-- One input while reset is not asserted. -/
def runStep (input : Input) (s : State) : Result :=
  match input with
  | .access a => hostAccess a s
  | .engineTurn => engineStep s
  | .resetAssert => .next (assertReset s)
  | .resetRelease => .next (releaseReset s)

/-- With no input left the engine steps if the block is not held in reset: a pending command is always taken in the end
(70_reset_and_hazards.md R208, R209). -/
def quietStep (s : State) : Result :=
  if s.inReset then .next s else engineStep s

end Sys2Proof.Machine
end

