-- ==== Sys2Proof/Machine/Step.lean ====
section
/-! DEFINITION. One step of the model, and how the host's checks place a command (log entry 12). -/

namespace Sys2Proof.Machine

/-- One step: the first input, or, with none left, the engine. -/
def step (s : State) : Host.Outcome State Fault Refusal :=
  match s.inputs with
  | [] => quietStep s
  | input :: rest =>
    if s.inReset then heldStep input { s with inputs := rest } else runStep input { s with inputs := rest }

/-- `s` with the command word latched, as a host write to CMD leaves it, the engine's turn next and reset released, so
that the next step executes it. RFP fetches nothing: a command starts by a CMD write (10_state.md R24). -/
def State.withFetchWord (s : State) (nbits w : Nat) : State :=
  { latchCommand (BitVec.ofNat 32 (w % 2 ^ nbits)) s with
    inputs := .engineTurn :: s.inputs
    inReset := false }

end Sys2Proof.Machine
end

