-- ==== Sys2Proof/Safety.lean ====
section
/-! DEFINITION. The terms the statements use: frames as the wire carries them, what FBUF holds, the shape of a completed
command, safe runs, and the invariant of the block. -/

namespace Sys2Proof.Machine

/-! ### Frames and headers as built by a sender (30_encoding.md R83, R85) -/

/-- What a sender chooses when it builds a frame (30_encoding.md R83). -/
structure WireFrame where
  /-- Frame bits 8..13. -/
  reserved : BitVec 6
  payload : List Byte
  checksum : BitVec 24
  deriving DecidableEq, Repr

/-- The payload length L. -/
def WireFrame.len (f : WireFrame) : Nat := f.payload.length

/-- The checksum's three bytes, big-endian. -/
def WireFrame.checksumBytes (f : WireFrame) : List Byte :=
  [f.checksum.extractLsb' 16 8, f.checksum.extractLsb' 8 8, f.checksum.extractLsb' 0 8]

/-- The preamble, the two length bytes and the payload: the bytes the checksum covers (41_crc24q.md R121). -/
def WireFrame.covered (pre : Byte) (f : WireFrame) : List Byte :=
  let l := BitVec.ofNat 10 f.len
  pre :: (f.reserved ++ l.extractLsb' 8 2) :: l.extractLsb' 0 8 :: f.payload

/-- The frame's bytes in wire order (30_encoding.md R83). -/
def WireFrame.bytes (pre : Byte) (f : WireFrame) : List Byte := f.covered pre ++ f.checksumBytes

/-- Frame bits 24..35: the first 12 bits after the length field, whatever they belong to (40_frame_parser.md R106). -/
def WireFrame.msgnum (f : WireFrame) : BitVec 12 :=
  let body := f.payload ++ f.checksumBytes
  (body.getD 0 0 ++ body.getD 1 0).extractLsb' 4 12

/-- The bits of a value, most significant first (00_scope.md R7). -/
def bitsOf {w : Nat} (v : BitVec w) : List Bool := (List.range w).map fun i => v.getMsbD i

/-- The bits of a byte string in wire order (00_scope.md R7). -/
def wireBits (bytes : List Byte) : List Bool := bytes.flatMap bitsOf

/-- A header's fields in wire order (30_encoding.md R85): 137 bits of fixed fields, then the two masks. -/
def Msm7Header.wire (v : Msm7Header) : BitVec 233 :=
  v.stationId ++ v.timeOfWeekMs ++ v.syncFlag ++ v.issueOfData ++ v.timeS ++ v.clockSteering ++ v.externalClock ++
    v.smoothingIndicator ++ v.smoothingIntervalS ++ v.satelliteCount ++ v.signalCount ++ v.cellMask ++
    v.satelliteMask ++ v.signalMask

/-- The payload begins with message number 1077 and then the header's bits; what follows is free. -/
abbrev WireFrame.CarriesHeader (f : WireFrame) (v : Msm7Header) : Prop :=
  (wireBits f.payload).take 245 = bitsOf (msm7Msgnum ++ v.wire)

/-! ### What FBUF holds -/

/-- Every byte of `bytes` is written in FBUF, in order from FRAME_BASE on. -/
abbrev State.HoldsBytes (s : State) (bytes : List Byte) : Prop :=
  ∀ k, (h : k < bytes.length) → s.fbuf.read (s.frameBase.toNat + k) = some bytes[k]

/-- The bytes lie between FRAME_BASE and BUF_LEN (40_frame_parser.md R101). -/
abbrev State.HasRoom (s : State) (n : Nat) : Prop := s.frameBase.toNat + n ≤ s.bufLen.toNat

/-- The whole frame is written and available. -/
abbrev State.HoldsFrame (s : State) (f : WireFrame) : Prop :=
  f.len ≤ 1023 ∧ s.HasRoom (f.len + 6) ∧ s.HoldsBytes (f.bytes s.config.preamble)

/-- The frame is available, and the bytes ParseFrame reads (40_frame_parser.md R100) are written; the others need not be. -/
abbrev State.HoldsParsedBytes (s : State) (f : WireFrame) : Prop :=
  f.len ≤ 1023 ∧ s.HasRoom (f.len + 6) ∧
  ∀ k ∈ [0, 1, 2, 3, 4, f.len + 3, f.len + 4, f.len + 5],
    s.fbuf.read (s.frameBase.toNat + k) = (f.bytes s.config.preamble)[k]?

/-- Every byte between FRAME_BASE and BUF_LEN is written. -/
abbrev State.AvailableWritten (s : State) : Prop :=
  ∀ i, i < s.bufLen.toNat → s.frameBase.toNat ≤ i → (s.fbuf.read i).isSome = true

/-- Group F after a successful parse of `f` (40_frame_parser.md R100). -/
def State.parsedRegs (s : State) (f : WireFrame) : FrameRegs :=
  { frmLen := BitVec.ofNat 10 f.len
    msgnum := f.msgnum
    mnInPayload := decide (2 ≤ f.len)
    frmClass := demux s f.msgnum (decide (2 ≤ f.len))
    frmPayload := BitVec.ofNat 13 (s.frameBase.toNat + 3)
    frmNext := BitVec.ofNat 13 (s.frameBase.toNat + f.len + 6)
    crcRecv := f.checksum }

/-- The allowlist holds `mn`: an enabled entry of the build names it (10_state.md R33). -/
def State.OnAllowlist (s : State) (mn : BitVec 12) : Prop :=
  ∃ n : Fin 8, n.val < s.config.allowN ∧ (s.allow.get n).en = true ∧ (s.allow.get n).num = mn

/-! ### Completed commands -/

/-- `s` after a frame command: only PENDING, STATUS and groups F, C and M may differ from `s`. -/
def State.afterFrameCommand (s : State) (op : BitVec 8) (e : ErrKind) (a : Advisories)
    (f : FrameRegs) (c : CrcRegs) (m : Msm7Regs) : State :=
  { s with pending := none, status := ⟨true, e, a, op⟩, groupF := f, groupC := c, groupM := m }

/-- `s` after a time command: only PENDING, STATUS and group G may differ from `s`. -/
def State.afterTimeCommand (s : State) (op : BitVec 8) (e : ErrKind) (a : Advisories) (g : TimeRegs) : State :=
  { s with pending := none, status := ⟨true, e, a, op⟩, groupG := g }

/-- `s` after an illegal command: only PENDING and STATUS may differ from `s`. -/
def State.afterIllegalCommand (s : State) (w : Word) : State :=
  { s with pending := none, status := ⟨true, .illegalCommand, .clear, w.extractLsb' 0 8⟩ }

/-- The four frame commands (10_state.md R50). -/
def frameCommands : List Instr := [.frameParse, .crcCheck, .msm7Decode, .frameDecode]

/-- The three time commands (10_state.md R50). -/
def timeCommands : List Instr := [.towFromUtc, .utcFromTow, .towCompare]

/-- The kinds each command can report (60_exceptions.md R180). -/
def errorsOf : Instr → List ErrKind
  | .frameParse => [.noError, .invalidPreamble, .truncatedFrame]
  | .crcCheck => [.noError, .invalidPreamble, .truncatedFrame]
  | .msm7Decode => [.noError, .invalidPreamble, .truncatedFrame, .unsupportedMessageType]
  | .frameDecode => [.noError, .invalidPreamble, .truncatedFrame]
  | .towFromUtc => [.noError, .domainError]
  | .utcFromTow => [.noError, .domainError]
  | .towCompare => [.noError]

/-! ### The address map, as ranges (20_memory.md R61) -/

/-- The offset is a multiple of 4 and in a row of the address map. -/
abbrev MappedOffset (c : Config) (off : Nat) : Prop :=
  off % 4 = 0 ∧
  (off ≤ 0x024 ∨ (0x040 ≤ off ∧ off < 0x040 + 4 * c.allowN) ∨ (0x080 ≤ off ∧ off ≤ 0x09C) ∨
   (0x0C0 ≤ off ∧ off ≤ 0x108) ∨ (0x200 ≤ off ∧ off < 0x300) ∨ (0x300 ≤ off ∧ off < 0x380) ∨
   (0x1000 ≤ off ∧ off < 0x1000 + 4 * c.fbufSize))

/-- The offset is in a row of the address map whose access is RW. -/
abbrev WritableOffset (c : Config) (off : Nat) : Prop :=
  off % 4 = 0 ∧
  (off = 0x000 ∨ (0x008 ≤ off ∧ off ≤ 0x01C) ∨ (0x040 ≤ off ∧ off < 0x040 + 4 * c.allowN) ∨
   (0x1000 ≤ off ∧ off < 0x1000 + 4 * c.fbufSize))

/-- The host's next input is this access at window offset `off`, and the block is not held in reset. -/
abbrev State.AccessNext (s : State) (a : HostAccess) (off : Nat) (rest : List Input) : Prop :=
  s.inputs = .access a :: rest ∧ s.inReset = false ∧ windowOffset s.config a.addr = some off

/-! ### Runs -/

/-- The next state of an outcome, if it is one. -/
def nextState : Result → Option State
  | .next s => some s
  | .fault _ => none
  | .refused _ => none

/-- The fault of an outcome, if it is one. -/
def faultOf : Result → Option Fault
  | .next _ => none
  | .fault f => some f
  | .refused _ => none

/-- `k` steps from `s` meet no fault: the run is not faulted (70_reset_and_hazards.md R211). -/
def SafeRun (k : Nat) (s : State) : Prop := ∃ t, Sys2Proof.core.run k s = .next t

/-- A run is over: the host has made its last access and nothing is pending (70_reset_and_hazards.md R211). -/
def State.Final (s : State) : Prop := s.inputs = [] ∧ s.pending = none

/-! ### The block's invariant -/

/-- Group M's counts and lists are those of its masks (42_msm7_reader.md R136). -/
structure Msm7Regs.Consistent (m : Msm7Regs) : Prop where
  satCount : m.satNact = BitVec.ofNat 7 (activeIndices (m.satmaskHi ++ m.satmaskLo)).length
  sigCount : m.sigNact = BitVec.ofNat 6 (activeIndices m.sigmask).length
  satIndices : m.satList = indexRegisters 7 64 (activeIndices (m.satmaskHi ++ m.satmaskLo))
  sigIndices : m.sigList = indexRegisters 6 32 (activeIndices m.sigmask)

/-- What holds of a frame's registers when a frame is parsed (10_state.md R35 to R38; 40_frame_parser.md R108). -/
structure FrameRegs.OfFrame (f : FrameRegs) : Prop where
  classed : f.frmClass ≠ .noFrame
  inPayload : f.mnInPayload = decide (2 ≤ f.frmLen.toNat)
  next : f.frmNext = f.frmPayload + f.frmLen.setWidth 13 + 3
  msm7 : f.frmClass = .msm7 → f.msgnum = msm7Msgnum ∧ f.mnInPayload = true

/-- What every reachable state of the block satisfies. -/
structure State.Inv (s : State) : Prop where
  /-- The build is one the spec allows (00_scope.md R5). -/
  build : s.config.wellFormed = true
  /-- FBUF is in canonical form. -/
  fbufCanonical : s.fbuf.wf
  /-- FBUF lists only indices of the buffer (10_state.md R22). -/
  fbufWithin : s.fbuf.within s.config.fbufSize
  /-- BUF_LEN never exceeds FBUF_SIZE (10_state.md R28). -/
  bufLen : s.bufLen.toNat ≤ s.config.fbufSize
  /-- While reset is asserted the block is in its reset state (70_reset_and_hazards.md R200). -/
  held : s.inReset = true → s = { resetBlock s with inReset := true }
  /-- A pending word is the one in CMD, and STATUS is as the latch left it (10_state.md R21, R26, R27). -/
  latched : ∀ w, s.pending = some w →
    s.cmd = w ∧ s.status.done = false ∧ s.status.err = .noError ∧ s.status.adv = .clear
  /-- ERR is never the reserved kind (60_exceptions.md R180). -/
  errProduced : s.status.err ≠ .malformedHexToken
  /-- Only CRC_CHECK and FRAME_DECODE set ADV_CRC_MISMATCH (10_state.md R51), and beside an error only FRAME_DECODE
  with ERR 2 does (60_exceptions.md R182). -/
  advCrc : s.status.adv.crcMismatch = true →
    (s.status.lastOp = 0x02#8 ∨ s.status.lastOp = 0x04#8) ∧
    (s.status.err = .noError ∨ s.status.lastOp = 0x04#8 ∧ s.status.err = .truncatedFrame)
  /-- Only MSM7_DECODE and FRAME_DECODE set ADV_TOW_RANGE, and only when they succeed (10_state.md R51). -/
  advTow : s.status.adv.towRange = true →
    (s.status.lastOp = 0x03#8 ∨ s.status.lastOp = 0x04#8) ∧ s.status.err = .noError
  /-- Only TOW_COMPARE sets ADV_TIME_MISALIGNED (10_state.md R51). -/
  advTime : s.status.adv.timeMisaligned = true → s.status.lastOp = 0x12#8 ∧ s.status.err = .noError
  /-- Group F is cleared or holds one parsed frame. -/
  groupF : s.groupF = .zero ∨ s.groupF.OfFrame
  /-- CRC_STAT.MATCH is the comparison, when one was made (10_state.md R41). -/
  groupC : s.groupC.matched = (s.groupC.checked && s.groupC.crcCalc == s.groupF.crcRecv)
  /-- Without a CRC, group C is cleared; with one, a frame was parsed. -/
  groupCIdle : (s.groupC.checked = false → s.groupC = .zero) ∧ (s.groupC.checked = true → s.groupF.OfFrame)
  /-- Group M is cleared or holds a header of a 1077 frame of at least 31 payload bytes (42_msm7_reader.md R131, R132). -/
  groupM : (s.groupM.valid = false → s.groupM = .zero) ∧
    (s.groupM.valid = true → s.groupF.msgnum = msm7Msgnum ∧ 31 ≤ s.groupF.frmLen.toNat)
  /-- Group M's lists and counts follow its masks. -/
  groupMLists : s.groupM.Consistent

end Sys2Proof.Machine
end

