-- ==== Sys2Proof/Certificates/Slice0/Obligations.lean ====
section
/-! DEFINITION. The statements for the provers. -/

open Sys2Proof Sys2Proof.Machine

/-! ### Encoding and starting a command -/

/-- 30_encoding.md R82: a word selects a command exactly when it is the command's match value. -/
def Obligations.CommandWordsDecodeExactly : Prop :=
  ∀ (w : Word) (i : Instr), decode w = .ok i ↔
    (w, i) ∈ [(0x00000001#32, Instr.frameParse), (0x00000002#32, .crcCheck), (0x00000003#32, .msm7Decode),
      (0x00000004#32, .frameDecode), (0x00000010#32, .towFromUtc), (0x00000011#32, .utcFromTow),
      (0x00000012#32, .towCompare)]

/-- 30_encoding.md R82 and 95_test_vectors.md table I: words written out from the opcode map, read by the decoder the
host asks, and words that select no command. -/
def Obligations.SampleWordsDecode : Prop :=
  decodeTableWord 32 0x00000001 = some .frameParse ∧ decodeTableWord 32 0x00000003 = some .msm7Decode ∧
  decodeTableWord 32 0x00000004 = some .frameDecode ∧ decodeTableWord 32 0x00000012 = some .towCompare ∧
  decodeTableWord 32 0x00000000 = none ∧ decodeTableWord 32 0x00000013 = none ∧
  decodeTableWord 32 0x00000101 = none ∧ decodeTableWord 32 0x80000004 = none

/-- 10_state.md R21: the engine's step executes the command the pending word selects. The step adds only that the
`engineTurn` input, if there is one, is used up. -/
def Obligations.StepExecutesThePendingCommand : Prop :=
  ∀ (s : State) (w : Word) (i : Instr),
    s.inReset = false → (s.inputs = [] ∨ s.inputs.head? = some .engineTurn) →
    s.pending = some w → decode w = .ok i →
    step s = exec i { s with inputs := s.inputs.tail }

/-- 60_exceptions.md R183: a word that selects no command completes with ERR 5, all ADV bits 0 and LAST_OP its bits
[7:0]; no operand is read and no result group touched (`afterIllegalCommand` changes PENDING and STATUS alone). As a
number STATUS is then LAST_OP, ERR 5 and DONE (95_test_vectors.md table I). -/
def Obligations.IllegalWordCompletes : Prop :=
  ∀ (s : State) (w : Word),
    s.inReset = false → (s.inputs = [] ∨ s.inputs.head? = some .engineTurn) →
    s.pending = some w → (∀ i, w ≠ encode i) →
    step s = .next (({ s with inputs := s.inputs.tail } : State).afterIllegalCommand w) ∧
    (({ s with inputs := s.inputs.tail } : State).afterIllegalCommand w).statusWord.toNat =
      w.toNat % 256 * 65536 + 5 * 16 + 2

/-! ### Reset, the invariant, the build -/

/-- 10_state.md R53: after reset nothing is pending, every register reads 0 and every WRITTEN tag is false. -/
def Obligations.ResetStateReadsAsTheTable : Prop :=
  State.reset.pending = none ∧
  (∀ r : Reg, (∀ i, r ≠ .fbuf i) → readReg State.reset r = some 0#32) ∧
  ∀ i, State.reset.fbuf.read i = none

/-- 70_reset_and_hazards.md R200: asserting the reset input abandons a pending command and puts every piece of the
block's state at its reset value, and so it is when the input is released. What is outside the block stays. -/
def Obligations.ResetInputRestoresTheResetState : Prop :=
  ∀ (s : State) (rest : List Input),
    (s.inputs = .resetAssert :: rest →
      step s = .next { State.reset with
        config := s.config, inputs := rest, replies := s.replies, draws := s.draws, inReset := true }) ∧
    (s.inputs = .resetRelease :: rest → s.inReset = true →
      step s = .next { State.reset with
        config := s.config, inputs := rest, replies := s.replies, draws := s.draws, inReset := false })

/-- The invariant of the block holds in the reset state (basis: 10_state.md R53). -/
def Obligations.ResetStateSatisfiesInv : Prop := State.reset.Inv

/-- Every step, of whichever agent, from every state that meets the invariant keeps it. -/
def Obligations.EveryStepKeepsInv : Prop :=
  ∀ s s' : State, s.Inv → step s = .next s' → s'.Inv

/-- No step changes the build parameters of 00_scope.md R5. That they are data of the state which no step changes is the
model's choice (log entry 1). -/
def Obligations.NoStepChangesTheBuild : Prop :=
  ∀ s s' : State, step s = .next s' → s'.config = s.config

/-! ### The frame parser -/

/-- 40_frame_parser.md R104, R106, R107 and 10_state.md R34 to R39: for every frame, of any length 0..1023, any reserved
bits, any payload and any checksum, FRAME_PARSE succeeds and group F holds the frame's fields, whatever the bytes that
ParseFrame does not read are; groups C and M are 0 and nothing else changes. -/
def Obligations.FrameParseRecoversTheFrame : Prop :=
  ∀ (s : State) (f : WireFrame), s.HoldsParsedBytes f →
    exec .frameParse s =
      .next (s.afterFrameCommand 0x01#8 .noError .clear (s.parsedRegs f) .zero .zero)

/-- 40_frame_parser.md R108: the demux classes. -/
def Obligations.DemuxFollowsTheAllowlist : Prop :=
  ∀ (s : State) (mn : BitVec 12) (inpay : Bool),
    (inpay = true ∧ s.OnAllowlist mn ∧ mn = 1077#12 → demux s mn inpay = .msm7) ∧
    (inpay = true ∧ s.OnAllowlist mn ∧ mn ≠ 1077#12 → demux s mn inpay = .generic) ∧
    (inpay = false ∨ ¬ s.OnAllowlist mn → demux s mn inpay = .unrecognized)

/-- 40_frame_parser.md R102: fewer than 6 bytes available is TruncatedFrame for every frame command, whatever the bytes
are and even if none is written. -/
def Obligations.ShortBufferIsTruncatedFrame : Prop :=
  ∀ i ∈ frameCommands, ∀ s : State, s.bufLen.toNat < s.frameBase.toNat + 6 →
    exec i s = .next (s.afterFrameCommand (opcodeOf i) .truncatedFrame .clear .zero .zero .zero)

/-- 40_frame_parser.md R103: a wrong first byte is InvalidPreamble for every frame command, whatever the other bytes are
and even if none of them is written. The standard build's preamble is 0xD3. -/
def Obligations.WrongPreambleIsInvalidPreamble : Prop :=
  Config.standard.preamble = 0xD3#8 ∧
  ∀ i ∈ frameCommands, ∀ (s : State) (b : Byte), s.HasRoom 6 →
    s.fbuf.read s.frameBase.toNat = some b → b ≠ s.config.preamble →
    exec i s = .next (s.afterFrameCommand (opcodeOf i) .invalidPreamble .clear .zero .zero .zero)

/-- 40_frame_parser.md R105, first sentence: a frame that runs past BUF_LEN is TruncatedFrame for every frame command. -/
def Obligations.FramePastTheBufferIsTruncatedFrame : Prop :=
  ∀ i ∈ frameCommands, ∀ (s : State) (b1 b2 : Byte), s.HasRoom 6 →
    s.fbuf.read s.frameBase.toNat = some s.config.preamble →
    s.fbuf.read (s.frameBase.toNat + 1) = some b1 → s.fbuf.read (s.frameBase.toNat + 2) = some b2 →
    s.bufLen.toNat < s.frameBase.toNat + ((b1.toNat % 4) * 256 + b2.toNat) + 6 →
    exec i s = .next (s.afterFrameCommand (opcodeOf i) .truncatedFrame .clear .zero .zero .zero)

/-- 20_memory.md R75: a frame command's outcome depends only on the FBUF bytes below BUF_LEN, BUF_LEN, FRAME_BASE, the
allowlist registers and, of the build, its preamble and ALLOW_N; no earlier command's result matters. -/
def Obligations.FrameCommandsDependOnlyOnTheFrame : Prop :=
  ∀ i ∈ frameCommands, ∀ s s' : State,
    s'.config.preamble = s.config.preamble → s'.config.allowN = s.config.allowN →
    s'.bufLen = s.bufLen → s'.frameBase = s.frameBase → s'.allow = s.allow →
    (∀ j, j < s.bufLen.toNat → s'.fbuf.read j = s.fbuf.read j) →
    (∀ t, exec i s = .next t → ∃ t', exec i s' = .next t' ∧ t'.groupF = t.groupF ∧ t'.groupC = t.groupC ∧
      t'.groupM = t.groupM ∧ t'.status = t.status) ∧
    ∀ r, exec i s = .fault r → exec i s' = .fault r

/-- 40_frame_parser.md R113 and 10_state.md R38: when two frames lie one after the other, FRM_NEXT after parsing the
first, written to FRAME_BASE, is where the second stands. -/
def Obligations.FrmNextStartsTheNextFrame : Prop :=
  ∀ (s : State) (f g : WireFrame), s.HoldsFrame f →
    s.HoldsBytes (f.bytes s.config.preamble ++ g.bytes s.config.preamble) →
    s.frameBase.toNat + f.len + 6 ≤ 4095 →
    ∃ t, exec .frameParse s = .next t ∧
      ({ t with frameBase := t.groupF.frmNext.setWidth 12 } : State).HoldsBytes (g.bytes s.config.preamble)

/-! ### The CRC -/

/-- 41_crc24q.md R121, R122: for every frame CRC_CHECK succeeds, the CRC covers the preamble, the two length bytes whole
and the payload, and a mismatch is an advisory beside an intact group F. -/
def Obligations.CrcCheckComparesTheChecksum : Prop :=
  ∀ (s : State) (f : WireFrame), s.HoldsFrame f →
    exec .crcCheck s =
      .next (s.afterFrameCommand 0x02#8 .noError
        ⟨decide (crc24q (f.covered s.config.preamble) ≠ f.checksum), false, false⟩ (s.parsedRegs f)
        ⟨crc24q (f.covered s.config.preamble), true,
          decide (crc24q (f.covered s.config.preamble) = f.checksum)⟩ .zero)

/-- 41_crc24q.md section 3, law 2, and the values of 95_test_vectors.md table C. -/
def Obligations.CrcReferenceValues : Prop :=
  crc24q [] = 0#24 ∧ crc24q [0x01#8] = 0x864CFB#24 ∧ crc24q [0xD3#8, 0x00#8, 0x00#8] = 0x47EA4B#24

/-- 41_crc24q.md section 3, law 3: a byte string followed by its own CRC, most significant byte first, has CRC 0. -/
def Obligations.CrcOfMessageWithItsCrcIsZero : Prop :=
  ∀ m : List Byte,
    crc24q (m ++ [(crc24q m).extractLsb' 16 8, (crc24q m).extractLsb' 8 8, (crc24q m).extractLsb' 0 8]) = 0#24

/-- 41_crc24q.md section 3, law 4: the CRC is linear on byte strings of equal length. -/
def Obligations.CrcIsLinear : Prop :=
  ∀ a b : List Byte, a.length = b.length →
    crc24q (List.zipWith (· ^^^ ·) a b) = crc24q a ^^^ crc24q b

/-- 41_crc24q.md section 3, law 5: flipping one bit of one covered byte changes the CRC. -/
def Obligations.CrcSeesEverySingleBitFlip : Prop :=
  ∀ (m : List Byte) (j : Nat) (bit : Fin 8), (h : j < m.length) →
    crc24q (m.set j (m[j] ^^^ BitVec.twoPow 8 bit.val)) ≠ crc24q m

/-! ### The MSM7 reader -/

/-- 42_msm7_reader.md R132: a frame whose number is not 1077, or has it outside the payload, is UnsupportedMessageType,
before any MSM7 bit is read (only the bytes ParseFrame reads need be written) and whatever the allowlist. -/
def Obligations.Msm7DecodeRejectsOtherMessages : Prop :=
  ∀ (s : State) (f : WireFrame), s.HoldsParsedBytes f → ¬ (f.msgnum = 1077#12 ∧ 2 ≤ f.len) →
    exec .msm7Decode s =
      .next (s.afterFrameCommand 0x03#8 .unsupportedMessageType .clear (s.parsedRegs f) .zero .zero)

/-- 42_msm7_reader.md R131 and 60_exceptions.md R181: a 1077 frame of at most 30 payload bytes is TruncatedFrame; group F
keeps the frame, groups C and M are 0. -/
def Obligations.Msm7DecodeOfShortPayloadIsTruncated : Prop :=
  ∀ (s : State) (f : WireFrame), s.HoldsFrame f → f.msgnum = 1077#12 → 2 ≤ f.len → f.len ≤ 30 →
    exec .msm7Decode s =
      .next (s.afterFrameCommand 0x03#8 .truncatedFrame .clear (s.parsedRegs f) .zero .zero)

/-- 30_encoding.md R85, 42_msm7_reader.md R134, R135: whatever header a payload carries, MSM7_DECODE delivers exactly its
fields, checks none of them, reports a time of week of a week or more in ADV_TOW_RANGE and succeeds. -/
def Obligations.Msm7DecodeDeliversTheHeader : Prop :=
  ∀ (s : State) (f : WireFrame) (v : Msm7Header), s.HoldsFrame f → f.CarriesHeader v →
    exec .msm7Decode s =
      .next (s.afterFrameCommand 0x03#8 .noError
        ⟨false, false, decide (604800000 ≤ v.timeOfWeekMs.toNat)⟩ (s.parsedRegs f) .zero (msm7Registers v))

/-- 10_state.md R42 to R49, 30_encoding.md R86: what the registers of group M show of a header. The count is the number
of active indices; entry k below the count is the active index that has exactly k active indices below it; the other
entries are 0. -/
def Obligations.Msm7RegistersShowFieldsAndIndexLists : Prop :=
  ∀ v : Msm7Header, let m := msm7Registers v
    (m.station = v.stationId ∧ m.tow = v.timeOfWeekMs ∧ m.sync = v.syncFlag ∧ m.iod = v.issueOfData ∧
      m.times = v.timeS ∧ m.clksteer = v.clockSteering ∧ m.extclk = v.externalClock ∧
      m.smooth = v.smoothingIndicator ∧ m.smint = v.smoothingIntervalS ∧ m.nsat = v.satelliteCount ∧
      m.nsig = v.signalCount ∧ m.cellHi ++ m.cellLo = v.cellMask ∧ m.satmaskHi ++ m.satmaskLo = v.satelliteMask ∧
      m.sigmask = v.signalMask ∧ m.valid = true) ∧
    m.satNact.toNat = (List.range 64).countP (fun b => v.satelliteMask.getLsbD b) ∧
    m.sigNact.toNat = (List.range 32).countP (fun b => v.signalMask.getLsbD b) ∧
    (∀ k : Fin 64,
      (k.val < m.satNact.toNat → ∃ n, (m.satList.get k).toNat = n ∧ 1 ≤ n ∧ n ≤ 64 ∧
        v.satelliteMask.getLsbD (64 - n) = true ∧
        (List.range n).countP (fun j => decide (1 ≤ j) && v.satelliteMask.getLsbD (64 - j)) = k.val) ∧
      (m.satNact.toNat ≤ k.val → m.satList.get k = 0#7)) ∧
    ∀ k : Fin 32,
      (k.val < m.sigNact.toNat → ∃ n, (m.sigList.get k).toNat = n ∧ 1 ≤ n ∧ n ≤ 32 ∧
        v.signalMask.getLsbD (32 - n) = true ∧
        (List.range n).countP (fun j => decide (1 ≤ j) && v.signalMask.getLsbD (32 - j)) = k.val) ∧
      (m.sigNact.toNat ≤ k.val → m.sigList.get k = 0#6)

/-- 30_encoding.md R85: a header and its 233 bits determine each other, so every payload of a 1077 frame of at least 31
bytes carries some header. -/
def Obligations.EveryPayloadCarriesSomeHeader : Prop :=
  ∀ f : WireFrame, 31 ≤ f.len → f.msgnum = 1077#12 → ∃ v : Msm7Header, f.CarriesHeader v

/-! ### The pipeline -/

/-- 43_frame_decode.md R151: GENERIC and UNRECOGNIZED frames run nothing after the CRC comparison and are no error. -/
def Obligations.FrameDecodeSkipsOtherClasses : Prop :=
  ∀ (s : State) (f : WireFrame), s.HoldsFrame f → demux s f.msgnum (decide (2 ≤ f.len)) ≠ .msm7 →
    exec .frameDecode s =
      .next (s.afterFrameCommand 0x04#8 .noError
        ⟨decide (crc24q (f.covered s.config.preamble) ≠ f.checksum), false, false⟩ (s.parsedRegs f)
        ⟨crc24q (f.covered s.config.preamble), true,
          decide (crc24q (f.covered s.config.preamble) = f.checksum)⟩ .zero)

/-- 43_frame_decode.md R152: for class MSM7 the header is read whatever the CRC result, and ADV_CRC_MISMATCH stands
beside it; when the read is TruncatedFrame, groups F and C and ADV_CRC_MISMATCH are kept and group M is 0. -/
def Obligations.FrameDecodeReadsTheHeaderWhateverTheCrc : Prop :=
  ∀ (s : State) (f : WireFrame), s.HoldsFrame f → demux s f.msgnum (decide (2 ≤ f.len)) = .msm7 →
    let bad := decide (crc24q (f.covered s.config.preamble) ≠ f.checksum)
    let c : CrcRegs := ⟨crc24q (f.covered s.config.preamble), true,
      decide (crc24q (f.covered s.config.preamble) = f.checksum)⟩
    (∀ v : Msm7Header, f.CarriesHeader v →
      exec .frameDecode s =
        .next (s.afterFrameCommand 0x04#8 .noError
          ⟨bad, false, decide (604800000 ≤ v.timeOfWeekMs.toNat)⟩ (s.parsedRegs f) c (msm7Registers v))) ∧
    (f.len ≤ 30 →
      exec .frameDecode s =
        .next (s.afterFrameCommand 0x04#8 .truncatedFrame ⟨bad, false, false⟩ (s.parsedRegs f) c .zero))

/-! ### All commands: completion, errors, advisories, frame -/

/-- 70_reset_and_hazards.md R209, 40_frame_parser.md R101: a command completes, or reads an unwritten FBUF byte; that
byte lies between FRAME_BASE and BUF_LEN, and only a frame command reads one. -/
def Obligations.CommandCompletesOrReadsUnwrittenByte : Prop :=
  ∀ (i : Instr) (s : State),
    (∃ t, exec i s = .next t ∧ t.pending = none ∧ t.status.done = true ∧ t.status.lastOp = opcodeOf i) ∨
    ∃ k, exec i s = .fault (.unwrittenRead k) ∧ i ∈ frameCommands ∧ s.frameBase.toNat ≤ k ∧
      k < s.bufLen.toNat ∧ s.fbuf.read k = none

/-- 70_reset_and_hazards.md R209: with nothing else to come from outside, a pending command of which every available byte
is written completes in one step, and the run is then over (R211). -/
def Obligations.PendingCommandCompletesInOneStep : Prop :=
  ∀ (s : State) (w : Word), s.inReset = false → s.inputs = [] → s.pending = some w → s.AvailableWritten →
    ∃ t, step s = .next t ∧ t.Final ∧ t.status.done = true ∧ t.status.lastOp = w.extractLsb' 0 8

/-- 70_reset_and_hazards.md R208, R211: with nothing else to come from outside and every available byte written, no
number of steps meets a fault; whatever was pending completes and the block then stays as it is. -/
def Obligations.QuietBlockRunsSafely : Prop :=
  ∀ (s : State) (k : Nat), s.inputs = [] → s.AvailableWritten →
    SafeRun k s ∧
    (s.inReset = false → ∀ t, Sys2Proof.core.run (k + 1) s = .next t → t.Final ∧ step t = .next t)

/-- 60_exceptions.md R180: which error kinds each command can report; the reserved kind is none of them, and a word that
selects no command reports IllegalCommand (`IllegalWordCompletes`). -/
def Obligations.CommandsReportOnlyTheirErrors : Prop :=
  ∀ (i : Instr) (s t : State), exec i s = .next t → t.status.err ∈ errorsOf i

/-- 10_state.md R51, 60_exceptions.md R182: which commands set which advisory, and beside which errors. -/
def Obligations.AdvisoriesBelongToTheirCommands : Prop :=
  ∀ (i : Instr) (s t : State), exec i s = .next t →
    (t.status.adv.crcMismatch = true →
      (i = .crcCheck ∧ t.status.err = .noError) ∨
      (i = .frameDecode ∧ (t.status.err = .noError ∨ t.status.err = .truncatedFrame))) ∧
    (t.status.adv.towRange = true → (i = .msm7Decode ∨ i = .frameDecode) ∧ t.status.err = .noError) ∧
    (t.status.adv.timeMisaligned = true → i = .towCompare ∧ t.status.err = .noError)

/-- The frame of the frame commands (10_state.md R50; 20_memory.md R60): only PENDING, STATUS and groups F, C and M may
change, every FBUF byte stays, and a group the command has no business with reads 0 (40_frame_parser.md R112). -/
def Obligations.FrameCommandsChangeOnlyTheirGroups : Prop :=
  ∀ i ∈ frameCommands, ∀ s t : State, exec i s = .next t →
    t = s.afterFrameCommand (opcodeOf i) t.status.err t.status.adv t.groupF t.groupC t.groupM ∧
    (∀ a, t.fbuf.read a = s.fbuf.read a) ∧
    (i = .frameParse ∨ i = .msm7Decode → t.groupC = .zero) ∧
    (i = .frameParse ∨ i = .crcCheck → t.groupM = .zero)

/-- 44_gps_time.md R168, first sentence: the time commands read only ARG0 to ARG2 and LEAP_SECONDS and write only group G
and STATUS (and PENDING, by completing); every other register and every FBUF byte stays. -/
def Obligations.TimeCommandsTouchOnlyGroupG : Prop :=
  ∀ i ∈ timeCommands, ∀ s s' : State,
    s'.arg0 = s.arg0 → s'.arg1 = s.arg1 → s'.arg2 = s.arg2 → s'.leapSeconds = s.leapSeconds →
    ∃ (e : ErrKind) (a : Advisories) (g : TimeRegs),
      exec i s = .next (s.afterTimeCommand (opcodeOf i) e a g) ∧
      exec i s' = .next (s'.afterTimeCommand (opcodeOf i) e a g)

/-! ### GPS time -/

/-- 44_gps_time.md R160: the day count of the epoch is 3657, and the day count of the following date is one more. -/
def Obligations.DayCountAdvancesWithTheCalendar : Prop :=
  daysFromCivil 1980 1 6 = 3657 ∧ daysFromCivil 1970 1 1 = 0 ∧
  ∀ y m d : Nat, 1 ≤ m → m ≤ 12 → 1 ≤ d → d ≤ daysInMonth y m →
    (d < daysInMonth y m → daysFromCivil y m (d + 1 : Nat) = daysFromCivil y m d + 1) ∧
    (d = daysInMonth y m → m < 12 → daysFromCivil y (m + 1 : Nat) 1 = daysFromCivil y m d + 1) ∧
    (d = daysInMonth y m → m = 12 → daysFromCivil (y + 1 : Nat) 1 1 = daysFromCivil y m d + 1)

/-- 44_gps_time.md R161: CivilFromDays is the inverse of DaysFromCivil, on every day number and on every date. -/
def Obligations.CivilFromDaysInvertsDaysFromCivil : Prop :=
  (∀ z : Int, let c := civilFromDays z
    daysFromCivil c.1 c.2.1 c.2.2 = z ∧ 1 ≤ c.2.1 ∧ c.2.1 ≤ 12 ∧ 1 ≤ c.2.2 ∧ c.2.2 ≤ 31) ∧
  ∀ y m d : Nat, 1 ≤ m → m ≤ 12 → 1 ≤ d → d ≤ daysInMonth y m →
    civilFromDays (daysFromCivil y m d) = ((y : Int), (m : Int), (d : Int))

/-- 44_gps_time.md R163: TOW_FROM_UTC. On well-formed operands with a total that is not negative, week and time of week
are the quotient and remainder of the exact GPS milliseconds since the epoch. Otherwise DomainError with group G 0. -/
def Obligations.TowFromUtcConvertsExactly : Prop :=
  ∀ s : State,
    let y := s.arg0.toNat / 65536
    let m := s.arg0.toNat / 256 % 256
    let d := s.arg0.toNat % 256
    let wellFormed := 1 ≤ m ∧ m ≤ 12 ∧ 1 ≤ d ∧ d ≤ daysInMonth y m ∧ 3657 ≤ daysFromCivil y m d ∧
      s.arg1.toNat < 86400000
    let total : Int := (daysFromCivil y m d - 3657) * 86400000 + s.arg1.toNat + s.leapSeconds.toInt * 1000
    (wellFormed ∧ 0 ≤ total →
      ∃ g : TimeRegs, exec .towFromUtc s = .next (s.afterTimeCommand 0x10#8 .noError .clear g) ∧
        (g.res0.toNat : Int) * 604800000 + g.res1.toNat = total ∧ g.res1.toNat < 604800000) ∧
    (¬ (wellFormed ∧ 0 ≤ total) →
      exec .towFromUtc s = .next (s.afterTimeCommand 0x10#8 .domainError .clear .zero))

/-- 44_gps_time.md R164: TOW_FROM_UTC agrees with the source's formula where that stays in one week, and always denotes
the same instant. -/
def Obligations.TowFromUtcAgreesWithTheSourceFormula : Prop :=
  ∀ s t : State, exec .towFromUtc s = .next t → t.status.err = .noError →
    let E := daysFromCivil (s.arg0.toNat / 65536 : Nat) (s.arg0.toNat / 256 % 256 : Nat) (s.arg0.toNat % 256 : Nat) - 3657
    let week := E / 7
    let towMs : Int := (E % 7 * 86400 + s.leapSeconds.toInt) * 1000 + s.arg1.toNat
    (0 ≤ towMs ∧ towMs ≤ 604799999 → (t.groupG.res0.toNat : Int) = week ∧ (t.groupG.res1.toNat : Int) = towMs) ∧
    (t.groupG.res0.toNat : Int) * 604800000 + t.groupG.res1.toNat = week * 604800000 + towMs ∧
    t.groupG.res1.toNat ≤ 604799999

/-- 44_gps_time.md R165: UTC_FROM_TOW. The result date is the one whose day count is that of the exact UTC milliseconds
since the epoch, and the rest is the time of day; DomainError with group G 0 when towMs is out of range, the instant is
before the epoch, or the year exceeds 65535. -/
def Obligations.UtcFromTowConvertsExactly : Prop :=
  ∀ s : State,
    let e : Int := (s.arg0.toNat : Int) * 604800000 + s.arg1.toNat - s.leapSeconds.toInt * 1000
    let failed : Host.Outcome State Fault Refusal := .next (s.afterTimeCommand 0x11#8 .domainError .clear .zero)
    (604800000 ≤ s.arg1.toNat → exec .utcFromTow s = failed) ∧
    (s.arg1.toNat < 604800000 → e < 0 → exec .utcFromTow s = failed) ∧
    (s.arg1.toNat < 604800000 → 0 ≤ e →
      ∀ y m d : Nat, 1 ≤ m → m ≤ 12 → 1 ≤ d → d ≤ daysInMonth y m →
        daysFromCivil y m d = e / 86400000 + 3657 →
        (65535 < y → exec .utcFromTow s = failed) ∧
        (y ≤ 65535 →
          exec .utcFromTow s = .next (s.afterTimeCommand 0x11#8 .noError .clear
            ⟨BitVec.ofNat 32 (y * 65536 + m * 256 + d), BitVec.ofInt 32 (e % 86400000)⟩)))

/-- 44_gps_time.md R166: UTC_FROM_TOW undoes TOW_FROM_UTC, for every accepted date and time of day and every leap-second
offset. -/
def Obligations.UtcFromTowUndoesTowFromUtc : Prop :=
  ∀ s t u : State, exec .towFromUtc s = .next t → t.status.err = .noError →
    u.arg0 = t.groupG.res0 → u.arg1 = t.groupG.res1 → u.leapSeconds = s.leapSeconds →
    exec .utcFromTow u = .next (u.afterTimeCommand 0x11#8 .noError .clear ⟨s.arg0, s.arg1⟩)

/-- 44_gps_time.md R167: TOW_COMPARE, on all operands. -/
def Obligations.TowCompareReportsTheDifference : Prop :=
  ∀ s : State,
    let delta := max s.arg0.toNat s.arg1.toNat - min s.arg0.toNat s.arg1.toNat
    let late := decide (s.arg2.toNat < delta)
    exec .towCompare s =
      .next (s.afterTimeCommand 0x12#8 .noError ⟨false, late, false⟩
        ⟨BitVec.ofNat 32 delta, if late then 1#32 else 0#32⟩)

/-! ### The host's bus -/

/-- 60_exceptions.md R184, 20_memory.md R62, R63: an access that is not 32 bits wide, is misaligned or unmapped, or
writes an RO register is a bus error, pending or not. -/
def Obligations.RefusedAccessIsBusError : Prop :=
  ∀ (s : State) (a : HostAccess) (off : Nat) (rest : List Input),
    s.config.wellFormed = true → s.AccessNext a off rest →
    (a.width ≠ .w32 ∨ ¬ MappedOffset s.config off ∨
      (∃ addr v, a = .write .w32 addr v ∧ ¬ WritableOffset s.config off)) →
    step s = .fault (.busError off)

/-- 60_exceptions.md R185: a write to CMD, an RW register or FBUF while a command is pending is a host hazard. -/
def Obligations.WriteWhilePendingIsHostHazard : Prop :=
  ∀ (s : State) (addr off : Nat) (v : Word) (rest : List Input),
    s.config.wellFormed = true → s.AccessNext (.write .w32 addr v) off rest → WritableOffset s.config off →
    s.pending.isSome = true →
    step s = .fault (.hostHazard off)

/-- 20_memory.md R64: while a command is pending, a read of STATUS or CMD gives its value and a read of any other mapped
register gives a freely drawn word with the reserved bits 0, a new draw each time (log entry 4). The statement holds
whatever the drawn word is. That an FBUF word is answered so too, written or not, is the model's reading (log entry 10). -/
def Obligations.ReadsWhilePending : Prop :=
  ∀ (s : State) (addr off : Nat) (r : Reg) (rest : List Input),
    s.AccessNext (.read .w32 addr) off rest → regAt s.config off = some r → s.pending.isSome = true →
    (r = .status → step s = .next { s with inputs := rest, replies := ⟨off, s.statusWord⟩ :: s.replies }) ∧
    (r = .cmd → step s = .next { s with inputs := rest, replies := ⟨off, s.cmd⟩ :: s.replies }) ∧
    (r ≠ .status → r ≠ .cmd → ∃ v : Word, v &&& ~~~ r.fieldMask = 0#32 ∧
      step s = .next { s with inputs := rest, replies := ⟨off, v⟩ :: s.replies, draws := s.draws + 1 })

/-- 20_memory.md R63 (second sentence), R70: a read of a mapped register while nothing is pending answers its current
value and changes no state of the block. Which register an offset selects and what its word is, as numbers, is
`RegisterWordsStandAtTheirOffsets`. -/
def Obligations.IdleReadsAnswerAndChangeNothing : Prop :=
  ∀ (s : State) (addr off : Nat) (r : Reg) (v : Word) (rest : List Input),
    s.AccessNext (.read .w32 addr) off rest → regAt s.config off = some r → s.pending = none →
    readReg s r = some v →
    step s = .next { s with inputs := rest, replies := ⟨off, v⟩ :: s.replies }

/-- 20_memory.md R65: a host write to FBUF word i stores the low byte at index i, sets its WRITTEN tag, and changes no
other byte and no register. -/
def Obligations.FbufWriteStoresOneByte : Prop :=
  ∀ (s : State) (addr i : Nat) (v : Word) (rest : List Input),
    s.AccessNext (.write .w32 addr v) (0x1000 + 4 * i) rest → i < s.config.fbufSize → s.pending = none →
    ∃ t, step s = .next t ∧ t = { s with inputs := rest, fbuf := t.fbuf } ∧
      t.fbuf.read i = some (v.setWidth 8) ∧ ∀ j, j ≠ i → t.fbuf.read j = s.fbuf.read j

/-- 20_memory.md R66: a host read of FBUF word i answers the byte zero-extended when it is written, and is the fault
UnwrittenRead when it is not. -/
def Obligations.FbufReadNeedsAWrittenByte : Prop :=
  ∀ (s : State) (addr i : Nat) (rest : List Input),
    s.AccessNext (.read .w32 addr) (0x1000 + 4 * i) rest → i < s.config.fbufSize → s.pending = none →
    (∀ b : Byte, s.fbuf.read i = some b →
      step s = .next { s with inputs := rest, replies := ⟨0x1000 + 4 * i, b.setWidth 32⟩ :: s.replies }) ∧
    (s.fbuf.read i = none → step s = .fault (.unwrittenRead i))

/-- 10_state.md R28 to R31, R33: an idle write to a configuration or argument register stores its own field and changes
nothing else. -/
def Obligations.ConfigurationWritesStoreTheirFields : Prop :=
  ∀ (s : State) (addr off : Nat) (v : Word) (rest : List Input),
    s.config.wellFormed = true → s.AccessNext (.write .w32 addr v) off rest → s.pending = none →
    (off = 0x008 → step s = .next { s with
      inputs := rest, bufLen := BitVec.ofNat 13 (min (v.toNat % 8192) s.config.fbufSize) }) ∧
    (off = 0x00C → step s = .next { s with inputs := rest, frameBase := v.setWidth 12 }) ∧
    (off = 0x010 → step s = .next { s with inputs := rest, leapSeconds := v }) ∧
    (off = 0x014 → step s = .next { s with inputs := rest, arg0 := v }) ∧
    (off = 0x018 → step s = .next { s with inputs := rest, arg1 := v }) ∧
    (off = 0x01C → step s = .next { s with inputs := rest, arg2 := v }) ∧
    ∀ n : Fin 8, n.val < s.config.allowN → off = 0x040 + 4 * n.val →
      step s = .next { s with inputs := rest, allow := s.allow.set n.val ⟨v.getLsbD 31, v.setWidth 12⟩ }

/-- 10_state.md R21, R26, R27: an idle write to CMD latches the whole word into CMD and PENDING, clears DONE, ERR and the
ADV bits, keeps LAST_OP, and changes no result group, operand or FBUF byte; STATUS then reads BUSY and LAST_OP alone. -/
def Obligations.CmdWriteLatchesTheCommand : Prop :=
  ∀ (s : State) (addr : Nat) (v : Word) (rest : List Input),
    s.AccessNext (.write .w32 addr v) 0x000 rest → s.pending = none →
    ∃ t, step s = .next t ∧
      t = { s with inputs := rest, cmd := v, pending := some v, status := ⟨false, .noError, .clear, s.status.lastOp⟩ } ∧
      t.statusWord = BitVec.ofNat 32 (s.status.lastOp.toNat * 65536 + 1)

/-- 10_state.md R25: in every register the bits that are no field read 0. -/
def Obligations.ReservedBitsReadZero : Prop :=
  ∀ (s : State) (r : Reg) (v : Word), readReg s r = some v → v &&& ~~~ r.fieldMask = 0#32

/-- 10_state.md R27, 60_exceptions.md R180 (the ERR codes) and 95_test_vectors.md: the STATUS word as a number. -/
def Obligations.StatusWordLayout : Prop :=
  ∀ s : State, s.statusWord.toNat =
    s.status.lastOp.toNat * 65536 + s.status.adv.towRange.toNat * 1024 + s.status.adv.timeMisaligned.toNat * 512 +
      s.status.adv.crcMismatch.toNat * 256 +
      (match s.status.err with
        | .noError => 0
        | .invalidPreamble => 1
        | .truncatedFrame => 2
        | .unsupportedMessageType => 3
        | .malformedHexToken => 4
        | .illegalCommand => 5
        | .domainError => 6) * 16 +
      s.status.done.toNat * 2 + s.pending.isSome.toNat

/-- 10_state.md R33, last sentence: entries the build lacks are unmapped and not in the allowlist. -/
def Obligations.MissingAllowEntriesAreIgnored : Prop :=
  ∀ (s : State) (n : Fin 8) (e : AllowEntry), s.config.wellFormed = true → s.config.allowN ≤ n.val →
    regAt s.config (0x040 + 4 * n.val) = none ∧
    ∀ mn inpay, demux { s with allow := s.allow.set n.val e } mn inpay = demux s mn inpay

/-- 20_memory.md R61 with 10_state.md R26 to R49: which register stands at which window offset, and what word an idle read
of it answers, as numbers. STATUS' number is `StatusWordLayout`, an FBUF word's is `FbufReadNeedsAWrittenByte`. -/
def Obligations.RegisterWordsStandAtTheirOffsets : Prop :=
  ∀ (s : State) (addr off : Nat) (rest : List Input),
    s.AccessNext (.read .w32 addr) off rest → s.pending = none →
    let answers (n : Nat) : Prop :=
      n < 2 ^ 32 ∧ step s = .next { s with inputs := rest, replies := ⟨off, BitVec.ofNat 32 n⟩ :: s.replies }
    ((off = 0x000 → answers s.cmd.toNat) ∧ (off = 0x004 → answers s.statusWord.toNat) ∧
      (off = 0x008 → answers s.bufLen.toNat) ∧ (off = 0x00C → answers s.frameBase.toNat) ∧
      (off = 0x010 → answers s.leapSeconds.toNat) ∧ (off = 0x014 → answers s.arg0.toNat) ∧
      (off = 0x018 → answers s.arg1.toNat) ∧ (off = 0x01C → answers s.arg2.toNat) ∧
      (off = 0x020 → answers s.groupG.res0.toNat) ∧ (off = 0x024 → answers s.groupG.res1.toNat)) ∧
    (∀ n : Fin 8, n.val < s.config.allowN → off = 0x040 + 4 * n.val →
      answers ((s.allow.get n).en.toNat * 2147483648 + (s.allow.get n).num.toNat)) ∧
    ((off = 0x080 → answers s.groupF.frmLen.toNat) ∧
      (off = 0x084 → answers (s.groupF.mnInPayload.toNat * 65536 + s.groupF.msgnum.toNat)) ∧
      (off = 0x088 → answers (match s.groupF.frmClass with
        | .noFrame => 0
        | .msm7 => 1
        | .generic => 2
        | .unrecognized => 3)) ∧
      (off = 0x08C → answers s.groupF.frmPayload.toNat) ∧ (off = 0x090 → answers s.groupF.frmNext.toNat) ∧
      (off = 0x094 → answers s.groupF.crcRecv.toNat) ∧ (off = 0x098 → answers s.groupC.crcCalc.toNat) ∧
      (off = 0x09C → answers (s.groupC.matched.toNat * 2 + s.groupC.checked.toNat))) ∧
    ((off = 0x0C0 → answers s.groupM.station.toNat) ∧ (off = 0x0C4 → answers s.groupM.tow.toNat) ∧
      (off = 0x0C8 → answers s.groupM.sync.toNat) ∧ (off = 0x0CC → answers s.groupM.iod.toNat) ∧
      (off = 0x0D0 → answers s.groupM.times.toNat) ∧ (off = 0x0D4 → answers s.groupM.clksteer.toNat) ∧
      (off = 0x0D8 → answers s.groupM.extclk.toNat) ∧ (off = 0x0DC → answers s.groupM.smooth.toNat) ∧
      (off = 0x0E0 → answers s.groupM.smint.toNat) ∧ (off = 0x0E4 → answers s.groupM.nsat.toNat) ∧
      (off = 0x0E8 → answers s.groupM.nsig.toNat) ∧ (off = 0x0EC → answers s.groupM.cellHi.toNat) ∧
      (off = 0x0F0 → answers s.groupM.cellLo.toNat) ∧ (off = 0x0F4 → answers s.groupM.satmaskHi.toNat) ∧
      (off = 0x0F8 → answers s.groupM.satmaskLo.toNat) ∧ (off = 0x0FC → answers s.groupM.sigmask.toNat) ∧
      (off = 0x100 → answers s.groupM.valid.toNat) ∧ (off = 0x104 → answers s.groupM.satNact.toNat) ∧
      (off = 0x108 → answers s.groupM.sigNact.toNat)) ∧
    (∀ k : Fin 64, off = 0x200 + 4 * k.val → answers (s.groupM.satList.get k).toNat) ∧
    ∀ k : Fin 32, off = 0x300 + 4 * k.val → answers (s.groupM.sigList.get k).toNat

/-- 30_encoding.md R80 to R82: encoding and decoding are inverse, on every command and on every word that selects one. -/
def Obligations.DecodeAndEncodeAreInverse : Prop :=
  (∀ i : Instr, i.wellFormed = true → decode (encode i) = .ok i) ∧
  ∀ (w : Word) (i : Instr), decode w = .ok i → encode i = w
end

