-- ==== Sys2Proof/Laws/Bus.lean ====
section
/-! SUPPORT. The address map: which offsets are mapped, which are writable, and which register each selects
(20_memory.md R61). -/

namespace Sys2Proof.Machine

/-- The ranges of 00_scope.md R5, as facts. -/
theorem Config.facts_of_wellFormed {c : Config} (h : c.wellFormed = true) :
    c.blockBase % 0x8000 = 0 ∧ 15 ≤ c.hostAddrBits ∧ c.blockBase + 0x8000 ≤ 2 ^ c.hostAddrBits ∧
    1029 ≤ c.fbufSize ∧ c.fbufSize ≤ 4096 ∧ 5 ≤ c.allowN ∧ c.allowN ≤ 8 := by
  simp only [Config.wellFormed, Bool.and_eq_true, decide_eq_true_eq] at h
  omega

/-- The single registers are at the offsets of the map's single rows. -/
theorem singleRegisters_isSome : ∀ off : Fin 0x200, off.val % 4 = 0 → ¬ (0x040 ≤ off.val ∧ off.val < 0x060) →
    (singleRegisters.lookup off.val).isSome = decide (off.val ≤ 0x024 ∨ (0x080 ≤ off.val ∧ off.val ≤ 0x09C) ∨
      (0x0C0 ≤ off.val ∧ off.val ≤ 0x108)) := by
  decide +kernel

/-- The single registers the host may write. -/
theorem singleRegisters_writable : ∀ off : Fin 0x200, ∀ r ∈ singleRegisters.lookup off.val,
    r.writable = decide (off.val = 0x000 ∨ (0x008 ≤ off.val ∧ off.val ≤ 0x01C)) := by
  decide +kernel

/-- No single register is an FBUF word. -/
theorem singleRegisters_not_fbuf {off i : Nat} : singleRegisters.lookup off ≠ some (.fbuf i) := by
  intro h
  have key : ∀ p ∈ singleRegisters, ∀ i, p.2 ≠ .fbuf i := by
    simp [singleRegisters, controlRegisters, frameRegisters, headerRegisters]
  obtain ⟨l₁, l₂, hl, -⟩ := List.lookup_eq_some_iff.1 h
  exact key (off, .fbuf i) (by rw [hl]; simp) i rfl

/-- An FBUF word's register. -/
theorem regAt_fbuf {c : Config} {i : Nat} (h : i < c.fbufSize) : regAt c (0x1000 + 4 * i) = some (.fbuf i) := by
  have h1 : (0x1000 + 4 * i) % 4 = 0 := by omega
  have h2 : (0x1000 + 4 * i - 0x1000) / 4 = i := by omega
  simp only [regAt, h1, h2]
  simp [h]

/-- An allowlist entry's register, if the build has it. -/
theorem regAt_allow {c : Config} (n : Fin 8) :
    regAt c (0x040 + 4 * n.val) = if n.val < c.allowN then some (.allow n) else none := by
  have hn := n.isLt
  have h1 : (0x040 + 4 * n.val) % 4 = 0 := by omega
  have h2 : (0x040 + 4 * n.val - 0x040) / 4 = n.val := by omega
  have h3 : ¬ 0x1000 ≤ 0x040 + 4 * n.val := by omega
  have h4 : ¬ 0x300 ≤ 0x040 + 4 * n.val := by omega
  have h5 : ¬ 0x200 ≤ 0x040 + 4 * n.val := by omega
  have h6 : 0x040 ≤ 0x040 + 4 * n.val ∧ 0x040 + 4 * n.val < 0x060 := by omega
  simp only [regAt, h1, h2, if_neg h3, if_neg h4, if_neg h5, if_pos h6, dif_pos hn]
  simp

/-- A satellite list entry's register. -/
theorem regAt_satList (c : Config) (k : Fin 64) : regAt c (0x200 + 4 * k.val) = some (.satList k) := by
  have hk := k.isLt
  have h1 : (0x200 + 4 * k.val) % 4 = 0 := by omega
  have h2 : (0x200 + 4 * k.val - 0x200) / 4 = k.val := by omega
  have h3 : ¬ 0x1000 ≤ 0x200 + 4 * k.val := by omega
  have h4 : ¬ 0x300 ≤ 0x200 + 4 * k.val := by omega
  simp only [regAt, h1, h2, if_neg h3, if_neg h4, dif_pos hk]
  simp

/-- A signal list entry's register. -/
theorem regAt_sigList (c : Config) (k : Fin 32) : regAt c (0x300 + 4 * k.val) = some (.sigList k) := by
  have hk := k.isLt
  have h1 : (0x300 + 4 * k.val) % 4 = 0 := by omega
  have h2 : (0x300 + 4 * k.val - 0x300) / 4 = k.val := by omega
  have h3 : ¬ 0x1000 ≤ 0x300 + 4 * k.val := by omega
  simp only [regAt, h1, h2, if_neg h3, dif_pos hk]
  simp

/-- The registers at fixed offsets that the host writes. -/
theorem regAt_control (c : Config) :
    regAt c 0x000 = some .cmd ∧ regAt c 0x004 = some .status ∧ regAt c 0x008 = some .bufLen ∧
    regAt c 0x00C = some .frameBase ∧ regAt c 0x010 = some .leapSeconds ∧ regAt c 0x014 = some .arg0 ∧
    regAt c 0x018 = some .arg1 ∧ regAt c 0x01C = some .arg2 :=
  ⟨rfl, rfl, rfl, rfl, rfl, rfl, rfl, rfl⟩

/-- Everything a mapped offset can select, and what it says of the offset. -/
theorem regAt_cases {c : Config} {off : Nat} {r : Reg} (h : regAt c off = some r) : off % 4 = 0 ∧
    ((∃ i, r = .fbuf i ∧ i < c.fbufSize ∧ off = 0x1000 + 4 * i) ∨
     (∃ k, r = .sigList k ∧ 0x300 ≤ off ∧ off < 0x380) ∨
     (∃ k, r = .satList k ∧ 0x200 ≤ off ∧ off < 0x300) ∨
     (∃ n : Fin 8, r = .allow n ∧ n.val < c.allowN ∧ off = 0x040 + 4 * n.val) ∨
     (off < 0x200 ∧ ¬ (0x040 ≤ off ∧ off < 0x060) ∧ singleRegisters.lookup off = some r)) := by
  unfold regAt at h
  split at h
  · cases h
  · rename_i h4
    refine ⟨by omega, ?_⟩
    split at h
    · split at h
      · cases h
        exact .inl ⟨_, rfl, by assumption, by omega⟩
      · cases h
    · split at h
      · split at h
        · cases h
          exact .inr (.inl ⟨_, rfl, by omega, by omega⟩)
        · cases h
      · split at h
        · split at h
          · cases h
            exact .inr (.inr (.inl ⟨_, rfl, by omega, by omega⟩))
          · cases h
        · split at h
          · split at h
            · split at h
              · cases h
                exact .inr (.inr (.inr (.inl ⟨_, rfl, by assumption, by dsimp only; omega⟩)))
              · cases h
            · cases h
          · exact .inr (.inr (.inr (.inr ⟨by omega, by assumption, h⟩)))

/-- An FBUF word that is mapped lies in the buffer. -/
theorem regAt_fbuf_lt {c : Config} {off i : Nat} (h : regAt c off = some (.fbuf i)) : i < c.fbufSize := by
  obtain ⟨-, ⟨i, hr, h, -⟩ | ⟨k, hr, -⟩ | ⟨k, hr, -⟩ | ⟨n, hr, -⟩ | ⟨-, -, hr⟩⟩ := regAt_cases h
  · cases hr; exact h
  · cases hr
  · cases hr
  · cases hr
  · exact absurd hr singleRegisters_not_fbuf

/-- What `regAt` answers is mapped, and its writability is the map's. -/
theorem regAt_some {c : Config} (hc : c.wellFormed = true) {off : Nat} {r : Reg} (h : regAt c off = some r) :
    MappedOffset c off ∧ (r.writable = true ↔ WritableOffset c off) := by
  obtain ⟨-, -, -, hf, -, -, ha⟩ := Config.facts_of_wellFormed hc
  obtain ⟨h4, ⟨i, rfl, hi, ho⟩ | ⟨k, rfl, h1, h2⟩ | ⟨k, rfl, h1, h2⟩ | ⟨n, rfl, hn, ho⟩ | ⟨hlt, hna, hr⟩⟩ := regAt_cases h
  · exact ⟨⟨h4, by omega⟩, fun _ => ⟨h4, by omega⟩, fun _ => rfl⟩
  · exact ⟨⟨h4, by omega⟩, ⟨(nomatch ·), fun h => absurd h.2 (by omega)⟩⟩
  · exact ⟨⟨h4, by omega⟩, ⟨(nomatch ·), fun h => absurd h.2 (by omega)⟩⟩
  · exact ⟨⟨h4, by omega⟩, fun _ => ⟨h4, by omega⟩, fun _ => rfl⟩
  · have hs := singleRegisters_isSome ⟨off, hlt⟩ h4 hna
    have hw := singleRegisters_writable ⟨off, hlt⟩ r hr
    dsimp only at hs hw
    rw [hr, Option.isSome_some, eq_comm, decide_eq_true_eq] at hs
    refine ⟨⟨h4, by omega⟩, ?_⟩
    rw [hw, decide_eq_true_eq]
    constructor
    · intro h; exact ⟨h4, by omega⟩
    · rintro ⟨-, h⟩; omega

/-- Where `regAt` answers nothing, nothing is mapped. -/
theorem regAt_none {c : Config} (hc : c.wellFormed = true) {off : Nat} (h : regAt c off = none) :
    ¬ MappedOffset c off := by
  obtain ⟨-, -, -, hf, -, -, ha⟩ := Config.facts_of_wellFormed hc
  rintro ⟨h4, hm⟩
  unfold regAt at h
  rw [if_neg (by omega)] at h
  split at h
  · split at h
    · cases h
    · omega
  · split at h
    · split at h
      · cases h
      · omega
    · split at h
      · split at h
        · cases h
        · omega
      · split at h
        · split at h
          · split at h
            · cases h
            · omega
          · omega
        · rename_i h1 h2 h3 hna
          have hs := singleRegisters_isSome ⟨off, by omega⟩ h4 hna
          dsimp only at hs
          rw [h, Option.isSome_none, eq_comm, decide_eq_false_iff_not] at hs
          omega

/-! ### Accepted accesses -/

/-- A word joined from fields, as a number. -/
theorem toNat_append_eq {n m : Nat} (x : BitVec n) (y : BitVec m) : (x ++ y).toNat = x.toNat * 2 ^ m + y.toNat := by
  rw [BitVec.toNat_append, ← Nat.shiftLeft_add_eq_or_of_lt y.isLt, Nat.shiftLeft_eq]

/-- A register's word does not depend on what is still to come from outside. -/
theorem readReg_inputs (s : State) (l : List Input) (r : Reg) : readReg { s with inputs := l } r = readReg s r := by
  cases r <;> rfl

theorem accessAt_read {s : State} {off addr : Nat} {r : Reg} (h : regAt s.config off = some r) :
    accessAt off (.read .w32 addr) s = hostRead off r s := by
  simp [accessAt, HostAccess.width, h]

theorem accessAt_write {s : State} {off addr : Nat} {r : Reg} {v : Word} (h : regAt s.config off = some r) :
    accessAt off (.write .w32 addr v) s = hostWrite off r v s := by
  simp [accessAt, HostAccess.width, h]

theorem hostRead_idle {s : State} {off : Nat} {r : Reg} {v : Word} (hp : s.pending = none) (h : readReg s r = some v) :
    hostRead off r s = reply off v s := by
  simp [hostRead, State.busy, hp, h]

theorem hostRead_unwritten {s : State} {off i : Nat} (hp : s.pending = none) (h : s.fbuf.read i = none) :
    hostRead off (.fbuf i) s = .fault (.unwrittenRead i) := by
  simp [hostRead, State.busy, hp, readReg, h]

theorem hostRead_pending {s : State} {off : Nat} {r : Reg} (hp : s.pending.isSome = true) :
    hostRead off r s = readWhilePending off r s := by
  simp [hostRead, State.busy, hp]

theorem hostWrite_idle {s : State} {off : Nat} {r : Reg} {v : Word} (hw : r.writable = true) (hp : s.pending = none) :
    hostWrite off r v s = .next (writeReg s r v) := by
  simp [hostWrite, hw, State.busy, hp]

theorem hostWrite_pending {s : State} {off : Nat} {r : Reg} {v : Word} (hw : r.writable = true)
    (hp : s.pending.isSome = true) : hostWrite off r v s = .fault (.hostHazard off) := by
  simp [hostWrite, hw, State.busy, hp]

theorem hostWrite_readOnly {s : State} {off : Nat} {r : Reg} {v : Word} (hw : r.writable = false) :
    hostWrite off r v s = .fault (.busError off) := by
  simp [hostWrite, hw]

end Sys2Proof.Machine
end

