-- ==== Sys2Proof/Laws/Reads.lean ====
section
/-! SUPPORT. What the engine's reads of FBUF give, when they give nothing, and what they depend on. -/

namespace Sys2Proof.Machine

/-! ### Values -/

/-- A written byte is read. -/
theorem frameByte_of_read {s : State} {k : Nat} {b : Byte} (h : s.fbuf.read (s.frameBase.toNat + k) = some b) :
    frameByte s k = .ok b := by
  simp [frameByte, fb, h]

/-- The bit of a written byte is read. -/
theorem frameBit_of_read {s : State} {k : Nat} {b : Byte} (h : s.fbuf.read (s.frameBase.toNat + k / 8) = some b) :
    frameBit s k = .ok (b.getMsbD (k % 8)) := by
  have hk : k % 8 < 8 := Nat.mod_lt _ (by decide)
  simp only [frameBit, frameByte_of_read h, BitVec.getMsbD]
  simp only [hk, decide_true, Bool.true_and]
  rfl

/-- The first `n` bits of a value as a number. -/
theorem readBitsNat_of_bits {s : State} {k w : Nat} (v : BitVec w) (n : Nat) (hn : n ≤ w)
    (h : ∀ j, j < w → frameBit s (k + j) = .ok (v.getMsbD j)) :
    readBitsNat s k n = .ok (v.toNat >>> (w - n)) := by
  induction n with
  | zero => simp [readBitsNat, Nat.shiftRight_eq_div_pow, Nat.div_eq_of_lt v.isLt, pure, Except.pure]
  | succ n ih =>
    rw [readBitsNat, ih (by omega), h n (by omega)]
    show Except.ok _ = Except.ok _
    congr 1
    have hb : v.getMsbD n = v.toNat.testBit (w - (n + 1)) := by
      simp only [BitVec.getMsbD, show n < w by omega, decide_true, Bool.true_and, BitVec.getLsbD]
      congr 1; omega
    have hs : v.toNat >>> (w - n) = (v.toNat >>> (w - (n + 1))) / 2 := by
      rw [Nat.shiftRight_eq_div_pow, Nat.shiftRight_eq_div_pow, Nat.div_div_eq_div_mul, ← Nat.pow_succ]
      congr 2; omega
    rw [hb, hs, Nat.testBit_eq_decide_div_mod_eq, ← Nat.shiftRight_eq_div_pow]
    generalize v.toNat >>> (w - (n + 1)) = x
    rcases Nat.mod_two_eq_zero_or_one x with h2 | h2 <;> simp [h2] <;> omega

/-- Reading a field whose bits are those of `v`, most significant first, gives `v`. -/
theorem readBits_of_bits {s : State} {k w : Nat} (v : BitVec w)
    (h : ∀ j, j < w → frameBit s (k + j) = .ok (v.getMsbD j)) : readBits s k w = .ok v := by
  rw [readBits, readBitsNat_of_bits v w (Nat.le_refl _) h]
  show Except.ok _ = Except.ok _
  simp

/-- A run of written bytes is read. -/
theorem frameBytes_of_read {s : State} (bytes : List Byte) (k : Nat)
    (h : ∀ j, (hj : j < bytes.length) → s.fbuf.read (s.frameBase.toNat + (k + j)) = some bytes[j]) :
    frameBytes s k bytes.length = .ok bytes := by
  induction bytes generalizing k with
  | nil => rfl
  | cons b bs ih =>
    have h0 := h 0 (by simp)
    have ht := ih (k + 1) fun j hj => by
      have := h (j + 1) (by simpa using hj)
      simpa [Nat.add_assoc, Nat.add_comm 1 j] using this
    simp only [List.length_cons, frameBytes, frameByte_of_read (by simpa using h0), ht]
    rfl

/-! ### Stops -/

/-- Every early end of `m` other than an error is a read of an unwritten byte between frame bytes `lo` and `hi`. -/
def StopsWithin {α : Type} (s : State) (lo hi : Nat) (m : Engine α) : Prop :=
  ∀ i, m = .error (.unwritten i) →
    s.frameBase.toNat + lo ≤ i ∧ i < s.frameBase.toNat + hi ∧ s.fbuf.read i = none

theorem StopsWithin.ok {α : Type} {s : State} {lo hi : Nat} (a : α) : StopsWithin s lo hi (.ok a) :=
  fun _ h => by simp at h

theorem StopsWithin.raise {α : Type} {s : State} {lo hi : Nat} (e : ErrKind) :
    StopsWithin s lo hi (raise e : Engine α) := fun _ h => by simp [Machine.raise] at h

theorem StopsWithin.bind {α β : Type} {s : State} {lo hi : Nat} {m : Engine α} {g : α → Engine β}
    (hm : StopsWithin s lo hi m) (hg : ∀ a, m = .ok a → StopsWithin s lo hi (g a)) :
    StopsWithin s lo hi (m >>= g) := by
  intro i h
  cases m with
  | error e =>
    have h' : e = .unwritten i := Except.error.inj h
    exact hm i (h' ▸ rfl)
  | ok a => exact hg a rfl i h

theorem StopsWithin.frameByte {s : State} {lo hi k : Nat} (h1 : lo ≤ k) (h2 : k < hi) :
    StopsWithin s lo hi (frameByte s k) := by
  intro i h
  simp only [Machine.frameByte, fb] at h
  split at h
  · simp at h
  · rename_i hr
    simp only [Except.error.injEq, EngineStop.unwritten.injEq] at h
    subst h
    exact ⟨by omega, by omega, hr⟩

theorem StopsWithin.readBits {s : State} {lo hi k w : Nat} (h1 : lo ≤ k / 8) (h2 : ∀ j, j < w → (k + j) / 8 < hi) :
    StopsWithin s lo hi (readBits s k w) := by
  have key : ∀ n, n ≤ w → StopsWithin s lo hi (readBitsNat s k n) := by
    intro n
    induction n with
    | zero => exact fun _ => StopsWithin.ok _
    | succ n ih =>
      intro hn
      refine (ih (by omega)).bind fun v _ => ?_
      refine StopsWithin.bind ?_ fun b _ => StopsWithin.ok _
      refine StopsWithin.bind (StopsWithin.frameByte ?_ (h2 n (by omega))) fun b _ => StopsWithin.ok _
      exact Nat.le_trans h1 (Nat.div_le_div_right (by omega))
  exact (key w (Nat.le_refl _)).bind fun v _ => StopsWithin.ok _

theorem StopsWithin.frameBytes {s : State} {lo hi k n : Nat} (h1 : lo ≤ k) (h2 : k + n ≤ hi) :
    StopsWithin s lo hi (frameBytes s k n) := by
  induction n generalizing k with
  | zero => exact StopsWithin.ok _
  | succ n ih =>
    refine (StopsWithin.frameByte h1 (by omega)).bind fun b _ => ?_
    exact (ih (k := k + 1) (by omega) (by omega)).bind fun bs _ => StopsWithin.ok _

/-! ### What reads depend on -/

/-- Two states whose frame bytes below `n` read alike. -/
def SameBytes (s s' : State) (n : Nat) : Prop := ∀ k, k < n → frameByte s' k = frameByte s k

theorem SameBytes.readBits {s s' : State} {n k w : Nat} (h : SameBytes s s' n) (hb : ∀ j, j < w → (k + j) / 8 < n) :
    readBits s' k w = readBits s k w := by
  have key : ∀ m, m ≤ w → readBitsNat s' k m = readBitsNat s k m := by
    intro m
    induction m with
    | zero => exact fun _ => rfl
    | succ m ih =>
      intro hm
      simp only [readBitsNat, ih (by omega), frameBit, h _ (hb m (by omega))]
  simp only [Machine.readBits, key w (Nat.le_refl _)]

theorem SameBytes.frameBytes {s s' : State} {n k m : Nat} (h : SameBytes s s' n) (hb : k + m ≤ n) :
    frameBytes s' k m = frameBytes s k m := by
  induction m generalizing k with
  | zero => rfl
  | succ m ih => simp only [Machine.frameBytes, h k (by omega), ih (k := k + 1) (by omega)]

end Sys2Proof.Machine
end

