-- ==== Sys2Proof/Laws/State.lean ====
section
/-! SUPPORT. One lemma per field for each shared update of the state, so that no later proof unfolds a record update. -/

namespace Sys2Proof.Machine

/-! ### `latchCommand` -/

@[simp] theorem latchCommand_config (w : Word) (s : State) :
    (latchCommand w s).config = s.config := rfl
@[simp] theorem latchCommand_inputs (w : Word) (s : State) :
    (latchCommand w s).inputs = s.inputs := rfl
@[simp] theorem latchCommand_replies (w : Word) (s : State) :
    (latchCommand w s).replies = s.replies := rfl
@[simp] theorem latchCommand_draws (w : Word) (s : State) :
    (latchCommand w s).draws = s.draws := rfl
@[simp] theorem latchCommand_inReset (w : Word) (s : State) :
    (latchCommand w s).inReset = s.inReset := rfl
@[simp] theorem latchCommand_pending (w : Word) (s : State) :
    (latchCommand w s).pending = some w := rfl
@[simp] theorem latchCommand_cmd (w : Word) (s : State) :
    (latchCommand w s).cmd = w := rfl
@[simp] theorem latchCommand_status (w : Word) (s : State) :
    (latchCommand w s).status = ⟨false, .noError, .clear, s.status.lastOp⟩ := rfl
@[simp] theorem latchCommand_bufLen (w : Word) (s : State) :
    (latchCommand w s).bufLen = s.bufLen := rfl
@[simp] theorem latchCommand_frameBase (w : Word) (s : State) :
    (latchCommand w s).frameBase = s.frameBase := rfl
@[simp] theorem latchCommand_leapSeconds (w : Word) (s : State) :
    (latchCommand w s).leapSeconds = s.leapSeconds := rfl
@[simp] theorem latchCommand_arg0 (w : Word) (s : State) :
    (latchCommand w s).arg0 = s.arg0 := rfl
@[simp] theorem latchCommand_arg1 (w : Word) (s : State) :
    (latchCommand w s).arg1 = s.arg1 := rfl
@[simp] theorem latchCommand_arg2 (w : Word) (s : State) :
    (latchCommand w s).arg2 = s.arg2 := rfl
@[simp] theorem latchCommand_allow (w : Word) (s : State) :
    (latchCommand w s).allow = s.allow := rfl
@[simp] theorem latchCommand_groupF (w : Word) (s : State) :
    (latchCommand w s).groupF = s.groupF := rfl
@[simp] theorem latchCommand_groupC (w : Word) (s : State) :
    (latchCommand w s).groupC = s.groupC := rfl
@[simp] theorem latchCommand_groupM (w : Word) (s : State) :
    (latchCommand w s).groupM = s.groupM := rfl
@[simp] theorem latchCommand_groupG (w : Word) (s : State) :
    (latchCommand w s).groupG = s.groupG := rfl
@[simp] theorem latchCommand_fbuf (w : Word) (s : State) :
    (latchCommand w s).fbuf = s.fbuf := rfl

/-! ### `completeCommand` -/

@[simp] theorem completeCommand_config (op : BitVec 8) (e : ErrKind) (a : Advisories) (s : State) :
    (completeCommand op e a s).config = s.config := rfl
@[simp] theorem completeCommand_inputs (op : BitVec 8) (e : ErrKind) (a : Advisories) (s : State) :
    (completeCommand op e a s).inputs = s.inputs := rfl
@[simp] theorem completeCommand_replies (op : BitVec 8) (e : ErrKind) (a : Advisories) (s : State) :
    (completeCommand op e a s).replies = s.replies := rfl
@[simp] theorem completeCommand_draws (op : BitVec 8) (e : ErrKind) (a : Advisories) (s : State) :
    (completeCommand op e a s).draws = s.draws := rfl
@[simp] theorem completeCommand_inReset (op : BitVec 8) (e : ErrKind) (a : Advisories) (s : State) :
    (completeCommand op e a s).inReset = s.inReset := rfl
@[simp] theorem completeCommand_pending (op : BitVec 8) (e : ErrKind) (a : Advisories) (s : State) :
    (completeCommand op e a s).pending = none := rfl
@[simp] theorem completeCommand_cmd (op : BitVec 8) (e : ErrKind) (a : Advisories) (s : State) :
    (completeCommand op e a s).cmd = s.cmd := rfl
@[simp] theorem completeCommand_status (op : BitVec 8) (e : ErrKind) (a : Advisories) (s : State) :
    (completeCommand op e a s).status = ⟨true, e, a, op⟩ := rfl
@[simp] theorem completeCommand_bufLen (op : BitVec 8) (e : ErrKind) (a : Advisories) (s : State) :
    (completeCommand op e a s).bufLen = s.bufLen := rfl
@[simp] theorem completeCommand_frameBase (op : BitVec 8) (e : ErrKind) (a : Advisories) (s : State) :
    (completeCommand op e a s).frameBase = s.frameBase := rfl
@[simp] theorem completeCommand_leapSeconds (op : BitVec 8) (e : ErrKind) (a : Advisories) (s : State) :
    (completeCommand op e a s).leapSeconds = s.leapSeconds := rfl
@[simp] theorem completeCommand_arg0 (op : BitVec 8) (e : ErrKind) (a : Advisories) (s : State) :
    (completeCommand op e a s).arg0 = s.arg0 := rfl
@[simp] theorem completeCommand_arg1 (op : BitVec 8) (e : ErrKind) (a : Advisories) (s : State) :
    (completeCommand op e a s).arg1 = s.arg1 := rfl
@[simp] theorem completeCommand_arg2 (op : BitVec 8) (e : ErrKind) (a : Advisories) (s : State) :
    (completeCommand op e a s).arg2 = s.arg2 := rfl
@[simp] theorem completeCommand_allow (op : BitVec 8) (e : ErrKind) (a : Advisories) (s : State) :
    (completeCommand op e a s).allow = s.allow := rfl
@[simp] theorem completeCommand_groupF (op : BitVec 8) (e : ErrKind) (a : Advisories) (s : State) :
    (completeCommand op e a s).groupF = s.groupF := rfl
@[simp] theorem completeCommand_groupC (op : BitVec 8) (e : ErrKind) (a : Advisories) (s : State) :
    (completeCommand op e a s).groupC = s.groupC := rfl
@[simp] theorem completeCommand_groupM (op : BitVec 8) (e : ErrKind) (a : Advisories) (s : State) :
    (completeCommand op e a s).groupM = s.groupM := rfl
@[simp] theorem completeCommand_groupG (op : BitVec 8) (e : ErrKind) (a : Advisories) (s : State) :
    (completeCommand op e a s).groupG = s.groupG := rfl
@[simp] theorem completeCommand_fbuf (op : BitVec 8) (e : ErrKind) (a : Advisories) (s : State) :
    (completeCommand op e a s).fbuf = s.fbuf := rfl

/-! ### `clearFrameGroups` -/

@[simp] theorem clearFrameGroups_config (s : State) :
    (clearFrameGroups s).config = s.config := rfl
@[simp] theorem clearFrameGroups_inputs (s : State) :
    (clearFrameGroups s).inputs = s.inputs := rfl
@[simp] theorem clearFrameGroups_replies (s : State) :
    (clearFrameGroups s).replies = s.replies := rfl
@[simp] theorem clearFrameGroups_draws (s : State) :
    (clearFrameGroups s).draws = s.draws := rfl
@[simp] theorem clearFrameGroups_inReset (s : State) :
    (clearFrameGroups s).inReset = s.inReset := rfl
@[simp] theorem clearFrameGroups_pending (s : State) :
    (clearFrameGroups s).pending = s.pending := rfl
@[simp] theorem clearFrameGroups_cmd (s : State) :
    (clearFrameGroups s).cmd = s.cmd := rfl
@[simp] theorem clearFrameGroups_status (s : State) :
    (clearFrameGroups s).status = s.status := rfl
@[simp] theorem clearFrameGroups_bufLen (s : State) :
    (clearFrameGroups s).bufLen = s.bufLen := rfl
@[simp] theorem clearFrameGroups_frameBase (s : State) :
    (clearFrameGroups s).frameBase = s.frameBase := rfl
@[simp] theorem clearFrameGroups_leapSeconds (s : State) :
    (clearFrameGroups s).leapSeconds = s.leapSeconds := rfl
@[simp] theorem clearFrameGroups_arg0 (s : State) :
    (clearFrameGroups s).arg0 = s.arg0 := rfl
@[simp] theorem clearFrameGroups_arg1 (s : State) :
    (clearFrameGroups s).arg1 = s.arg1 := rfl
@[simp] theorem clearFrameGroups_arg2 (s : State) :
    (clearFrameGroups s).arg2 = s.arg2 := rfl
@[simp] theorem clearFrameGroups_allow (s : State) :
    (clearFrameGroups s).allow = s.allow := rfl
@[simp] theorem clearFrameGroups_groupF (s : State) :
    (clearFrameGroups s).groupF = .zero := rfl
@[simp] theorem clearFrameGroups_groupC (s : State) :
    (clearFrameGroups s).groupC = .zero := rfl
@[simp] theorem clearFrameGroups_groupM (s : State) :
    (clearFrameGroups s).groupM = .zero := rfl
@[simp] theorem clearFrameGroups_groupG (s : State) :
    (clearFrameGroups s).groupG = s.groupG := rfl
@[simp] theorem clearFrameGroups_fbuf (s : State) :
    (clearFrameGroups s).fbuf = s.fbuf := rfl

/-! ### `clearTimeGroup` -/

@[simp] theorem clearTimeGroup_config (s : State) :
    (clearTimeGroup s).config = s.config := rfl
@[simp] theorem clearTimeGroup_inputs (s : State) :
    (clearTimeGroup s).inputs = s.inputs := rfl
@[simp] theorem clearTimeGroup_replies (s : State) :
    (clearTimeGroup s).replies = s.replies := rfl
@[simp] theorem clearTimeGroup_draws (s : State) :
    (clearTimeGroup s).draws = s.draws := rfl
@[simp] theorem clearTimeGroup_inReset (s : State) :
    (clearTimeGroup s).inReset = s.inReset := rfl
@[simp] theorem clearTimeGroup_pending (s : State) :
    (clearTimeGroup s).pending = s.pending := rfl
@[simp] theorem clearTimeGroup_cmd (s : State) :
    (clearTimeGroup s).cmd = s.cmd := rfl
@[simp] theorem clearTimeGroup_status (s : State) :
    (clearTimeGroup s).status = s.status := rfl
@[simp] theorem clearTimeGroup_bufLen (s : State) :
    (clearTimeGroup s).bufLen = s.bufLen := rfl
@[simp] theorem clearTimeGroup_frameBase (s : State) :
    (clearTimeGroup s).frameBase = s.frameBase := rfl
@[simp] theorem clearTimeGroup_leapSeconds (s : State) :
    (clearTimeGroup s).leapSeconds = s.leapSeconds := rfl
@[simp] theorem clearTimeGroup_arg0 (s : State) :
    (clearTimeGroup s).arg0 = s.arg0 := rfl
@[simp] theorem clearTimeGroup_arg1 (s : State) :
    (clearTimeGroup s).arg1 = s.arg1 := rfl
@[simp] theorem clearTimeGroup_arg2 (s : State) :
    (clearTimeGroup s).arg2 = s.arg2 := rfl
@[simp] theorem clearTimeGroup_allow (s : State) :
    (clearTimeGroup s).allow = s.allow := rfl
@[simp] theorem clearTimeGroup_groupF (s : State) :
    (clearTimeGroup s).groupF = s.groupF := rfl
@[simp] theorem clearTimeGroup_groupC (s : State) :
    (clearTimeGroup s).groupC = s.groupC := rfl
@[simp] theorem clearTimeGroup_groupM (s : State) :
    (clearTimeGroup s).groupM = s.groupM := rfl
@[simp] theorem clearTimeGroup_groupG (s : State) :
    (clearTimeGroup s).groupG = .zero := rfl
@[simp] theorem clearTimeGroup_fbuf (s : State) :
    (clearTimeGroup s).fbuf = s.fbuf := rfl

/-! ### `resetBlock` -/

@[simp] theorem resetBlock_config (s : State) :
    (resetBlock s).config = s.config := rfl
@[simp] theorem resetBlock_inputs (s : State) :
    (resetBlock s).inputs = s.inputs := rfl
@[simp] theorem resetBlock_replies (s : State) :
    (resetBlock s).replies = s.replies := rfl
@[simp] theorem resetBlock_draws (s : State) :
    (resetBlock s).draws = s.draws := rfl
@[simp] theorem resetBlock_inReset (s : State) :
    (resetBlock s).inReset = s.inReset := rfl
@[simp] theorem resetBlock_pending (s : State) :
    (resetBlock s).pending = State.reset.pending := rfl
@[simp] theorem resetBlock_cmd (s : State) :
    (resetBlock s).cmd = State.reset.cmd := rfl
@[simp] theorem resetBlock_status (s : State) :
    (resetBlock s).status = State.reset.status := rfl
@[simp] theorem resetBlock_bufLen (s : State) :
    (resetBlock s).bufLen = State.reset.bufLen := rfl
@[simp] theorem resetBlock_frameBase (s : State) :
    (resetBlock s).frameBase = State.reset.frameBase := rfl
@[simp] theorem resetBlock_leapSeconds (s : State) :
    (resetBlock s).leapSeconds = State.reset.leapSeconds := rfl
@[simp] theorem resetBlock_arg0 (s : State) :
    (resetBlock s).arg0 = State.reset.arg0 := rfl
@[simp] theorem resetBlock_arg1 (s : State) :
    (resetBlock s).arg1 = State.reset.arg1 := rfl
@[simp] theorem resetBlock_arg2 (s : State) :
    (resetBlock s).arg2 = State.reset.arg2 := rfl
@[simp] theorem resetBlock_allow (s : State) :
    (resetBlock s).allow = State.reset.allow := rfl
@[simp] theorem resetBlock_groupF (s : State) :
    (resetBlock s).groupF = State.reset.groupF := rfl
@[simp] theorem resetBlock_groupC (s : State) :
    (resetBlock s).groupC = State.reset.groupC := rfl
@[simp] theorem resetBlock_groupM (s : State) :
    (resetBlock s).groupM = State.reset.groupM := rfl
@[simp] theorem resetBlock_groupG (s : State) :
    (resetBlock s).groupG = State.reset.groupG := rfl
@[simp] theorem resetBlock_fbuf (s : State) :
    (resetBlock s).fbuf = State.reset.fbuf := rfl

/-! ### `assertReset` -/

@[simp] theorem assertReset_config (s : State) :
    (assertReset s).config = s.config := rfl
@[simp] theorem assertReset_inputs (s : State) :
    (assertReset s).inputs = s.inputs := rfl
@[simp] theorem assertReset_replies (s : State) :
    (assertReset s).replies = s.replies := rfl
@[simp] theorem assertReset_draws (s : State) :
    (assertReset s).draws = s.draws := rfl
@[simp] theorem assertReset_inReset (s : State) :
    (assertReset s).inReset = true := rfl
@[simp] theorem assertReset_pending (s : State) :
    (assertReset s).pending = State.reset.pending := rfl
@[simp] theorem assertReset_cmd (s : State) :
    (assertReset s).cmd = State.reset.cmd := rfl
@[simp] theorem assertReset_status (s : State) :
    (assertReset s).status = State.reset.status := rfl
@[simp] theorem assertReset_bufLen (s : State) :
    (assertReset s).bufLen = State.reset.bufLen := rfl
@[simp] theorem assertReset_frameBase (s : State) :
    (assertReset s).frameBase = State.reset.frameBase := rfl
@[simp] theorem assertReset_leapSeconds (s : State) :
    (assertReset s).leapSeconds = State.reset.leapSeconds := rfl
@[simp] theorem assertReset_arg0 (s : State) :
    (assertReset s).arg0 = State.reset.arg0 := rfl
@[simp] theorem assertReset_arg1 (s : State) :
    (assertReset s).arg1 = State.reset.arg1 := rfl
@[simp] theorem assertReset_arg2 (s : State) :
    (assertReset s).arg2 = State.reset.arg2 := rfl
@[simp] theorem assertReset_allow (s : State) :
    (assertReset s).allow = State.reset.allow := rfl
@[simp] theorem assertReset_groupF (s : State) :
    (assertReset s).groupF = State.reset.groupF := rfl
@[simp] theorem assertReset_groupC (s : State) :
    (assertReset s).groupC = State.reset.groupC := rfl
@[simp] theorem assertReset_groupM (s : State) :
    (assertReset s).groupM = State.reset.groupM := rfl
@[simp] theorem assertReset_groupG (s : State) :
    (assertReset s).groupG = State.reset.groupG := rfl
@[simp] theorem assertReset_fbuf (s : State) :
    (assertReset s).fbuf = State.reset.fbuf := rfl

end Sys2Proof.Machine
end

