-- ==== Sys2Proof/Laws/Frame.lean ====
section
/-! SUPPORT. What ParseFrame and the shared start of the frame commands can do. -/

namespace Sys2Proof.Machine

theorem engine_bind_ok {α β : Type} {m : Engine α} {g : α → Engine β} {b : β} (h : (m >>= g) = .ok b) :
    ∃ a, m = .ok a ∧ g a = .ok b := by
  cases m with
  | error e => exact absurd h (by intro h; cases h)
  | ok a => exact ⟨a, rfl, h⟩

theorem engine_ok_bind {α β : Type} (a : α) (g : α → Engine β) : ((.ok a : Engine α) >>= g) = g a := rfl

theorem engine_error_bind {α β : Type} (e : EngineStop) (g : α → Engine β) :
    ((.error e : Engine α) >>= g) = .error e := rfl

/-! ### Bits of the frame's fixed fields -/

/-- The two length bytes give the length back, whatever the reserved bits. -/
theorem lengthField_of_bytes (r : BitVec 6) (l : BitVec 10) :
    lengthField (r ++ l.extractLsb' 8 2) (l.extractLsb' 0 8) = l := by
  apply BitVec.eq_of_getLsbD_eq
  intro i hi
  simp only [lengthField, BitVec.getLsbD_append, BitVec.getLsbD_extractLsb']
  interval_cases i <;> simp

/-- The length as a number from its two bytes. -/
theorem lengthField_toNat (b1 b2 : Byte) : (lengthField b1 b2).toNat = (b1.toNat % 4) * 256 + b2.toNat := by
  have h2 := b2.isLt
  simp only [lengthField, BitVec.extractLsb'_toNat, BitVec.toNat_append, Nat.shiftRight_zero]
  rw [← Nat.shiftLeft_add_eq_or_of_lt h2, Nat.shiftLeft_eq]
  omega

/-- Three bytes, big-endian, give the 24-bit value back. -/
theorem bytes_of_value24 (c : BitVec 24) : c.extractLsb' 16 8 ++ c.extractLsb' 8 8 ++ c.extractLsb' 0 8 = c := by
  apply BitVec.eq_of_getLsbD_eq
  intro i hi
  simp only [BitVec.getLsbD_append, BitVec.getLsbD_extractLsb']
  interval_cases i <;> simp

/-- The bits of the top 12 of 16. -/
theorem getMsbD_top12 (a b : Byte) (j : Nat) (hj : j < 12) :
    ((a ++ b).extractLsb' 4 12).getMsbD j = if j < 8 then a.getMsbD j else b.getMsbD (j - 8) := by
  simp only [BitVec.getMsbD, BitVec.getLsbD_append, BitVec.getLsbD_extractLsb']
  interval_cases j <;> simp

/-! ### ParseFrame -/

/-- ParseFrame depends on the build's preamble and ALLOW_N, BUF_LEN, FRAME_BASE, the allowlist and the available bytes alone. -/
theorem parseFrame_congr {s s' : State} (hp : s'.config.preamble = s.config.preamble)
    (hn : s'.config.allowN = s.config.allowN) (hb : s'.bufLen = s.bufLen) (hf : s'.frameBase = s.frameBase)
    (ha : s'.allow = s.allow) (hr : SameBytes s s' (availableBytes s)) :
    parseFrame s' = parseFrame s := by
  have hav : availableBytes s' = availableBytes s := by simp [availableBytes, hb, hf]
  have hd : ∀ mn p, demux s' mn p = demux s mn p := fun mn p => by unfold demux allowed; rw [ha, hn]
  unfold parseFrame
  rw [hav]
  split
  · rfl
  · rename_i h6
    rw [hr 0 (by omega), hr 1 (by omega), hr 2 (by omega),
      hr.readBits (k := 24) (w := 12) (fun j hj => by omega), hp, hf]
    simp only [hd]
    congr 1; funext f0
    split
    · rfl
    · congr 1; funext f1; congr 1; funext f2
      split
      · rfl
      · rename_i hl
        rw [hr _ (show (lengthField f1 f2).toNat + 3 < _ by omega), hr _ (show (lengthField f1 f2).toNat + 4 < _ by omega),
          hr _ (show (lengthField f1 f2).toNat + 5 < _ by omega)]

/-- What a successful parse says. -/
theorem parseFrame_ok {s : State} {f : FrameRegs} (h : parseFrame s = .ok f) :
    s.frameBase.toNat + f.frmLen.toNat + 6 ≤ s.bufLen.toNat ∧
    f.mnInPayload = decide (2 ≤ f.frmLen.toNat) ∧ f.frmClass = demux s f.msgnum f.mnInPayload ∧
    f.frmPayload = BitVec.ofNat 13 (s.frameBase.toNat + 3) ∧
    f.frmNext = BitVec.ofNat 13 (s.frameBase.toNat + f.frmLen.toNat + 6) := by
  unfold parseFrame at h
  split at h
  · cases h
  · obtain ⟨f0, -, h⟩ := engine_bind_ok h
    split at h
    · cases h
    · obtain ⟨f1, -, h⟩ := engine_bind_ok h
      obtain ⟨f2, -, h⟩ := engine_bind_ok h
      dsimp only at h
      split at h
      · cases h
      · rename_i h6 _ hl
        obtain ⟨mn, -, h⟩ := engine_bind_ok h
        obtain ⟨c0, -, h⟩ := engine_bind_ok h
        obtain ⟨c1, -, h⟩ := engine_bind_ok h
        obtain ⟨c2, -, h⟩ := engine_bind_ok h
        cases h
        refine ⟨?_, rfl, rfl, rfl, rfl⟩
        simp only [availableBytes] at hl h6
        show s.frameBase.toNat + (lengthField f1 f2).toNat + 6 ≤ _
        omega

/-- ParseFrame raises only TruncatedFrame and InvalidPreamble. -/
theorem parseFrame_raised {s : State} {e : ErrKind} (h : parseFrame s = .error (.raised e)) :
    e = .truncatedFrame ∨ e = .invalidPreamble := by
  have hb : ∀ k, frameByte s k ≠ .error (.raised e) := fun k hk => by
    simp only [frameByte, fb] at hk; split at hk <;> cases hk
  have bind : ∀ {α β : Type} {m : Engine α} {g : α → Engine β}, (m >>= g) = .error (.raised e) →
      m = .error (.raised e) ∨ ∃ a, m = .ok a ∧ g a = .error (.raised e) := by
    intro α β m g hh
    cases m with
    | error x => exact .inl (congrArg Except.error (Except.error.inj hh))
    | ok a => exact .inr ⟨a, rfl, hh⟩
  have hn : ∀ k w, readBitsNat s k w ≠ .error (.raised e) := by
    intro k w
    induction w with
    | zero => intro hh; cases hh
    | succ w ih =>
      intro hh
      rcases bind hh with hh | ⟨_, -, hh⟩
      · exact ih hh
      · rcases bind hh with hh | ⟨_, -, hh⟩
        · rcases bind hh with hh | ⟨_, -, hh⟩
          · exact hb _ hh
          · cases hh
        · cases hh
  unfold parseFrame at h
  split at h
  · exact .inl (by cases h; rfl)
  · rcases bind h with h | ⟨f0, -, h⟩
    · exact absurd h (hb _)
    · split at h
      · exact .inr (by cases h; rfl)
      · rcases bind h with h | ⟨f1, -, h⟩
        · exact absurd h (hb _)
        · rcases bind h with h | ⟨f2, -, h⟩
          · exact absurd h (hb _)
          · dsimp only at h
            split at h
            · exact .inl (by cases h; rfl)
            · rcases bind h with h | ⟨mn, -, h⟩
              · rcases bind h with h | ⟨_, -, h⟩
                · exact absurd h (hn _ _)
                · cases h
              · rcases bind h with h | ⟨_, -, h⟩
                · exact absurd h (hb _)
                · rcases bind h with h | ⟨_, -, h⟩
                  · exact absurd h (hb _)
                  · rcases bind h with h | ⟨_, -, h⟩
                    · exact absurd h (hb _)
                    · cases h

/-- ParseFrame reads only available bytes (40_frame_parser.md R101). -/
theorem parseFrame_stopsWithin (s : State) : StopsWithin s 0 (availableBytes s) (parseFrame s) := by
  unfold parseFrame
  split
  · exact StopsWithin.raise _
  · rename_i h6
    refine (StopsWithin.frameByte (by omega) (by omega)).bind fun f0 _ => ?_
    split
    · exact StopsWithin.raise _
    · refine (StopsWithin.frameByte (by omega) (by omega)).bind fun f1 _ => ?_
      refine (StopsWithin.frameByte (by omega) (by omega)).bind fun f2 _ => ?_
      dsimp only
      split
      · exact StopsWithin.raise _
      · refine (StopsWithin.readBits (by omega) (fun j hj => by omega)).bind fun mn _ => ?_
        refine (StopsWithin.frameByte (by omega) (by omega)).bind fun c0 _ => ?_
        refine (StopsWithin.frameByte (by omega) (by omega)).bind fun c1 _ => ?_
        exact (StopsWithin.frameByte (by omega) (by omega)).bind fun c2 _ => StopsWithin.ok _

/-- The byte of a built frame at 3 + j. -/
theorem WireFrame.bytes_body (pre : Byte) (f : WireFrame) (j : Nat) :
    (f.bytes pre)[3 + j]? = (f.payload ++ f.checksumBytes)[j]? := by
  rw [Nat.add_comm]; rfl

theorem WireFrame.length_bytes (pre : Byte) (f : WireFrame) : (f.bytes pre).length = f.len + 6 := by
  simp [WireFrame.bytes, WireFrame.covered, WireFrame.checksumBytes, WireFrame.len]

/-- Holding the whole frame is holding the bytes ParseFrame reads. -/
theorem State.HoldsFrame.parsedBytes {s : State} {f : WireFrame} (h : s.HoldsFrame f) : s.HoldsParsedBytes f := by
  refine ⟨h.1, h.2.1, fun k hk => ?_⟩
  have hl := f.length_bytes s.config.preamble
  have hk' : k < (f.bytes s.config.preamble).length := by
    simp only [List.mem_cons, List.not_mem_nil, or_false] at hk
    omega
  rw [h.2.2 k hk', List.getElem?_eq_getElem hk']

/-- Parsing a frame that is there gives its fields (40_frame_parser.md R100 to R107). -/
theorem parseFrame_of_held {s : State} {f : WireFrame} (h : s.HoldsParsedBytes f) :
    parseFrame s = .ok (s.parsedRegs f) := by
  obtain ⟨hlen, hroom, hk⟩ := h
  have hbody : ∀ j, j < f.len + 3 → 3 + j ∈ [0, 1, 2, 3, 4, f.len + 3, f.len + 4, f.len + 5] →
      frameByte s (3 + j) = .ok ((f.payload ++ f.checksumBytes).getD j 0) := by
    intro j hj hm
    refine frameByte_of_read ?_
    rw [hk _ hm, f.bytes_body]
    have hj' : j < (f.payload ++ f.checksumBytes).length := by
      simpa [WireFrame.checksumBytes, WireFrame.len] using hj
    simp only [List.getD, List.getElem?_eq_getElem hj', Option.getD_some]
  have h0 : frameByte s 0 = .ok s.config.preamble := frameByte_of_read (hk 0 (by simp))
  have h1 : frameByte s 1 = .ok (f.reserved ++ (BitVec.ofNat 10 f.len).extractLsb' 8 2) :=
    frameByte_of_read (hk 1 (by simp))
  have h2 : frameByte s 2 = .ok ((BitVec.ofNat 10 f.len).extractLsb' 0 8) := frameByte_of_read (hk 2 (by simp))
  have h3 := hbody 0 (by omega) (by simp)
  have h4 := hbody 1 (by omega) (by simp)
  have hcs : ∀ j, (f.payload ++ f.checksumBytes).getD (f.len + j) 0 = f.checksumBytes.getD j 0 := by
    intro j
    simp only [List.getD, WireFrame.len]
    rw [List.getElem?_append_right (by omega), Nat.add_sub_cancel_left]
  have c0 : frameByte s (f.len + 3) = .ok (f.checksum.extractLsb' 16 8) := by
    have := hbody f.len (by omega) (by simp [Nat.add_comm])
    rw [Nat.add_comm 3] at this
    rw [this, show f.len = f.len + 0 from rfl, hcs]; rfl
  have c1 : frameByte s (f.len + 4) = .ok (f.checksum.extractLsb' 8 8) := by
    have := hbody (f.len + 1) (by omega) (by simp; omega)
    rw [show 3 + (f.len + 1) = f.len + 4 by omega, hcs] at this; exact this
  have c2 : frameByte s (f.len + 5) = .ok (f.checksum.extractLsb' 0 8) := by
    have := hbody (f.len + 2) (by omega) (by simp; omega)
    rw [show 3 + (f.len + 2) = f.len + 5 by omega, hcs] at this; exact this
  have hL : (BitVec.ofNat 10 f.len).toNat = f.len := by
    simp only [BitVec.toNat_ofNat]; omega
  have hmn : readBits s 24 12 = .ok f.msgnum := by
    refine readBits_of_bits _ fun j hj => ?_
    rw [WireFrame.msgnum, getMsbD_top12 _ _ j hj, frameBit]
    by_cases h8 : j < 8
    · rw [show (24 + j) / 8 = 3 + 0 by omega, h3, show (24 + j) % 8 = j by omega, if_pos h8]
      simp [BitVec.getMsbD, h8]
    · rw [show (24 + j) / 8 = 3 + 1 by omega, h4, show (24 + j) % 8 = j - 8 by omega, if_neg h8]
      simp [BitVec.getMsbD, show j - 8 < 8 by omega]
  have hav : f.len + 6 ≤ availableBytes s := by simp only [availableBytes]; omega
  unfold parseFrame
  rw [if_neg (by omega), h0, engine_ok_bind, if_neg (by simp), h1, engine_ok_bind, h2, engine_ok_bind]
  dsimp only
  rw [lengthField_of_bytes, hL, if_neg (by omega), hmn, engine_ok_bind, c0, engine_ok_bind, c1, engine_ok_bind, c2,
    engine_ok_bind, bytes_of_value24]
  rfl

/-! ### The shared start of the frame commands -/

theorem parseFrame_clear (s : State) : parseFrame (clearFrameGroups s) = parseFrame s :=
  parseFrame_congr rfl rfl rfl rfl rfl fun _ _ => rfl

/-- A parsed frame is handed on, with group F written and groups C and M cleared. -/
theorem withParsedFrame_ok {i : Instr} {s : State} {f : FrameRegs} (h : parseFrame s = .ok f)
    (rest : FrameRegs → State → Result) :
    withParsedFrame i s rest = rest f { clearFrameGroups s with groupF := f } := by
  simp only [withParsedFrame, parseFrame_clear, h]

/-- A parse that raises completes the command with the error and every frame group 0 (60_exceptions.md R181). -/
theorem withParsedFrame_raised {i : Instr} {s : State} {e : ErrKind} (h : parseFrame s = .error (.raised e))
    (rest : FrameRegs → State → Result) :
    withParsedFrame i s rest = .next (s.afterFrameCommand (opcodeOf i) e .clear .zero .zero .zero) := by
  simp only [withParsedFrame, parseFrame_clear, h]
  rfl

/-- A parse that reads an unwritten byte is a fault. -/
theorem withParsedFrame_unwritten {i : Instr} {s : State} {k : Nat} (h : parseFrame s = .error (.unwritten k))
    (rest : FrameRegs → State → Result) :
    withParsedFrame i s rest = .fault (.unwrittenRead k) := by
  simp only [withParsedFrame, parseFrame_clear, h]
  rfl

/-- Each frame command is `withParsedFrame` of what it does next. -/
theorem exec_frame_eq {i : Instr} (hi : i ∈ frameCommands) (s : State) :
    ∃ rest, exec i s = withParsedFrame i s rest := by
  simp only [frameCommands, List.mem_cons, List.not_mem_nil, or_false] at hi
  rcases hi with rfl | rfl | rfl | rfl
  · exact ⟨_, by unfold exec execFrameParse; rfl⟩
  · exact ⟨_, by unfold exec execCrcCheck; rfl⟩
  · exact ⟨_, by unfold exec execMsm7Decode; rfl⟩
  · exact ⟨_, by unfold exec execFrameDecode; rfl⟩

/-- What a parse answers is a parsed frame. -/
theorem parseFrame_ofFrame {s : State} {f : FrameRegs} (h : parseFrame s = .ok f) : f.OfFrame := by
  obtain ⟨h1, h2, h3, h4, h5⟩ := parseFrame_ok h
  refine ⟨?_, h2, ?_, ?_⟩
  · rw [h3]; unfold demux; split
    · simp
    · split
      · simp
      · split <;> simp
  · rw [h5, h4]
    apply BitVec.eq_of_toNat_eq
    simp [BitVec.toNat_add]; omega
  · rw [h3]; unfold demux
    split
    · simp
    · split
      · simp
      · split
        · rename_i h _ _; intro _; refine ⟨by assumption, ?_⟩; simpa using h
        · simp

end Sys2Proof.Machine
end

