-- ==== Sys2Proof/Laws/Stages.lean ====
section
/-! SUPPORT. What the CRC stage and the MSM7 stage of the frame commands can do. -/

namespace Sys2Proof.Machine

/-! ### The CRC stage -/

/-- The CRC of a frame that is there covers the preamble, the length bytes and the payload (41_crc24q.md R121). -/
theorem frameCrc_of_held {s : State} {f : WireFrame} (h : s.HoldsFrame f) :
    frameCrc s (f.len + 3) = .ok (crc24q (f.covered s.config.preamble)) := by
  have hl : (f.covered s.config.preamble).length = f.len + 3 := rfl
  have hb : frameBytes s 0 (f.covered s.config.preamble).length = .ok (f.covered s.config.preamble) := by
    refine frameBytes_of_read _ 0 fun j hj => ?_
    have hj' : j < (f.bytes s.config.preamble).length := by
      rw [f.length_bytes]; omega
    rw [Nat.zero_add, h.2.2 j hj']
    congr 1
    exact List.getElem_append_left hj
  rw [hl] at hb
  rw [frameCrc, hb]
  rfl

theorem frameCrc_stopsWithin {s : State} {n hi : Nat} (h : n ≤ hi) : StopsWithin s 0 hi (frameCrc s n) :=
  (StopsWithin.frameBytes (Nat.zero_le _) (by omega)).bind fun _ _ => StopsWithin.ok _

/-- The CRC raises no error. -/
theorem frameCrc_not_raised {s : State} {n : Nat} {e : ErrKind} : frameCrc s n ≠ .error (.raised e) := by
  have key : ∀ m k, frameBytes s k m ≠ .error (.raised e) := by
    intro m
    induction m with
    | zero => intro k h; cases h
    | succ m ih =>
      intro k h
      cases hb : frameByte s k with
      | error x =>
        rw [frameBytes, hb] at h
        simp only [frameByte, fb] at hb
        split at hb
        · cases hb
        · cases hb; cases h
      | ok b =>
        rw [frameBytes, hb, engine_ok_bind] at h
        cases hr : frameBytes s (k + 1) m with
        | error x => rw [hr] at h; exact ih _ (hr.trans (congrArg _ (Except.error.inj h)))
        | ok bs => rw [hr] at h; cases h
  intro h
  rw [frameCrc] at h
  cases hb : frameBytes s 0 n with
  | error x => rw [hb] at h; exact key _ _ (hb.trans (congrArg _ (Except.error.inj h)))
  | ok b => rw [hb] at h; cases h

theorem SameBytes.frameCrc {s s' : State} {n m : Nat} (h : SameBytes s s' n) (hm : m ≤ n) :
    frameCrc s' m = frameCrc s m := by
  simp only [Machine.frameCrc, h.frameBytes (k := 0) (m := m) (by omega)]

/-! ### The MSM7 stage -/

theorem cursorRead_stopsWithin {s : State} {len pos w : Nat} :
    StopsWithin s 0 (3 + len) (cursorRead s (24 + 8 * len) pos w) := by
  unfold cursorRead
  split
  · exact StopsWithin.raise _
  · exact StopsWithin.readBits (Nat.zero_le _) fun j hj => by omega

theorem SameBytes.cursorRead {s s' : State} {len : Nat} (h : SameBytes s s' (3 + len)) (pos w : Nat) :
    cursorRead s' (24 + 8 * len) pos w = cursorRead s (24 + 8 * len) pos w := by
  unfold Machine.cursorRead
  split
  · rfl
  · exact h.readBits fun j hj => by omega

theorem cursorRead_raised {s : State} {lim pos w : Nat} {e : ErrKind} (h : cursorRead s lim pos w = .error (.raised e)) :
    e = .truncatedFrame := by
  unfold cursorRead at h
  split at h
  · cases h; rfl
  · exfalso
    have hn : ∀ n, readBitsNat s pos n ≠ .error (.raised e) := by
      intro n
      induction n with
      | zero => intro h; cases h
      | succ n ih =>
        intro h
        rw [readBitsNat] at h
        cases hv : readBitsNat s pos n with
        | error x => rw [hv] at h; exact ih (hv.trans (congrArg _ (Except.error.inj h)))
        | ok v =>
          rw [hv, engine_ok_bind] at h
          simp only [frameBit, frameByte, fb] at h
          split at h <;> cases h
    rw [readBits] at h
    cases hv : readBitsNat s pos w with
    | error x => rw [hv] at h; exact hn _ (hv.trans (congrArg _ (Except.error.inj h)))
    | ok v => rw [hv] at h; cases h

/-- The header reader reads only the payload, never the checksum (42_msm7_reader.md R130). -/
theorem readMsm7_stopsWithin (s : State) (len : Nat) : StopsWithin s 0 (3 + len) (readMsm7 s len) := by
  unfold readMsm7
  repeat first
    | exact StopsWithin.ok _
    | refine StopsWithin.bind cursorRead_stopsWithin fun _ _ => ?_

theorem SameBytes.readMsm7 {s s' : State} {len : Nat} (h : SameBytes s s' (3 + len)) :
    readMsm7 s' len = readMsm7 s len := by
  simp only [Machine.readMsm7, h.cursorRead]

theorem engine_bind_raised {α β : Type} {m : Engine α} {g : α → Engine β} {e : ErrKind}
    (h : (m >>= g) = .error (.raised e)) :
    m = .error (.raised e) ∨ ∃ a, m = .ok a ∧ g a = .error (.raised e) := by
  cases m with
  | error x => exact .inl (congrArg Except.error (Except.error.inj h))
  | ok a => exact .inr ⟨a, rfl, h⟩

/-- The header reader raises only TruncatedFrame. -/
theorem readMsm7_raised {s : State} {len : Nat} {e : ErrKind} (h : readMsm7 s len = .error (.raised e)) :
    e = .truncatedFrame := by
  unfold readMsm7 at h
  dsimp only at h
  repeat first
    | exact absurd h (by intro h; cases h)
    | rcases engine_bind_raised h with h | ⟨_, -, h⟩
      · exact cursorRead_raised h

theorem cursorRead_ok_fits {s : State} {lim pos w : Nat} {v : BitVec w} (h : cursorRead s lim pos w = .ok v) :
    pos + w ≤ lim := by
  unfold cursorRead at h
  split at h
  · cases h
  · omega

/-- A header is read only from a payload of at least 31 bytes (42_msm7_reader.md R131). -/
theorem readMsm7_ok_long {s : State} {len : Nat} {v : Msm7Header} (h : readMsm7 s len = .ok v) : 31 ≤ len := by
  unfold readMsm7 at h
  dsimp only at h
  iterate 13 (obtain ⟨_, -, h⟩ := engine_bind_ok h)
  obtain ⟨_, h, -⟩ := engine_bind_ok h
  have := cursorRead_ok_fits h
  omega

/-- The bits of a byte string, one byte at a time. -/
theorem wireBits_getElem? (bytes : List Byte) (q r : Nat) (hr : r < 8) :
    (wireBits bytes)[8 * q + r]? = bytes[q]?.map fun b => b.getMsbD r := by
  induction bytes generalizing q with
  | nil => rfl
  | cons b bs ih =>
    have hlen : (bitsOf b).length = 8 := by simp [bitsOf]
    rw [show wireBits (b :: bs) = bitsOf b ++ wireBits bs from rfl, List.getElem?_append, hlen]
    cases q with
    | zero =>
      simp only [Nat.mul_zero, Nat.zero_add, hr, if_true]
      simp [bitsOf, hr]
    | succ q =>
      rw [if_neg (by omega), show 8 * (q + 1) + r - 8 = 8 * q + r by omega, ih]
      rfl

theorem wireBits_length (bytes : List Byte) : (wireBits bytes).length = 8 * bytes.length := by
  induction bytes with
  | nil => rfl
  | cons b bs ih =>
    rw [show wireBits (b :: bs) = bitsOf b ++ wireBits bs from rfl, List.length_append, ih]
    simp [bitsOf]; omega

/-- A frame that is there has its payload's bits from frame bit 24 on. -/
theorem frameBit_of_held {s : State} {f : WireFrame} (h : s.HoldsFrame f) {p : Nat} {b : Bool}
    (hp : (wireBits f.payload)[p]? = some b) : frameBit s (24 + p) = .ok b := by
  have hm : p % 8 < 8 := Nat.mod_lt _ (by decide)
  have hw := wireBits_getElem? f.payload (p / 8) (p % 8) hm
  rw [Nat.div_add_mod, hp] at hw
  obtain ⟨x, hx, hb⟩ := Option.map_eq_some_iff.1 hw.symm
  have hlt : p / 8 < f.payload.length := (List.getElem?_eq_some_iff.1 hx).1
  have hread : s.fbuf.read (s.frameBase.toNat + (24 + p) / 8) = some x := by
    have hk : (24 + p) / 8 < (f.bytes s.config.preamble).length := by
      rw [f.length_bytes, WireFrame.len]; omega
    rw [h.2.2 _ hk, ← List.getElem?_eq_getElem hk, show (24 + p) / 8 = 3 + p / 8 by omega, f.bytes_body,
      List.getElem?_append_left hlt, hx]
  rw [frameBit_of_read hread, show (24 + p) % 8 = p % 8 by omega, hb]

/-- The header a payload carries stands in the frame from frame bit 36 on (30_encoding.md R85). -/
theorem frameBit_of_header {s : State} {f : WireFrame} {v : Msm7Header} (h : s.HoldsFrame f) (hv : f.CarriesHeader v)
    {c : Nat} (hc : c < 233) : frameBit s (36 + c) = .ok (v.wire.getMsbD c) := by
  rw [show 36 + c = 24 + (12 + c) by omega]
  refine frameBit_of_held h ?_
  have h1 : ((wireBits f.payload).take 245)[12 + c]? = (wireBits f.payload)[12 + c]? :=
    List.getElem?_take_of_lt (by omega)
  rw [← h1, hv]
  simp only [bitsOf, List.getElem?_map, List.getElem?_range (show 12 + c < 12 + 233 by omega), Option.map_some,
    BitVec.getMsbD_append]
  rw [if_pos (by omega), Nat.add_sub_cancel_left]

theorem WireFrame.CarriesHeader.long {f : WireFrame} {v : Msm7Header} (hv : f.CarriesHeader v) : 31 ≤ f.len := by
  have := congrArg List.length hv
  rw [List.length_take, wireBits_length] at this
  simp only [bitsOf, List.length_map, List.length_range, WireFrame.len] at this ⊢
  omega

/-- The bits of the front part of a string of fields. -/
theorem getMsbD_append_front {n m i : Nat} (x : BitVec n) (y : BitVec m) (h : i < n) :
    (x ++ y).getMsbD i = x.getMsbD i := by
  rw [BitVec.getMsbD_append, if_neg (by omega)]

/-- The bits of the last of a string of fields. -/
theorem getMsbD_append_back {n m : Nat} (x : BitVec n) (y : BitVec m) (i j : Nat) (h : i = n + j) :
    (x ++ y).getMsbD i = y.getMsbD j := by
  rw [BitVec.getMsbD_append, if_pos (by omega)]
  congr 1
  omega

/-- The bits of a value by position. -/
theorem bitsOf_getElem? {w : Nat} (v : BitVec w) (i : Nat) : (bitsOf v)[i]? = if i < w then some (v.getMsbD i) else none := by
  unfold bitsOf
  rw [List.getElem?_map]
  by_cases h : i < w
  · rw [List.getElem?_range h]; simp [h]
  · rw [List.getElem?_eq_none (by simp; omega)]; simp [h]

/-- The first bits of a payload are the message number (40_frame_parser.md R106). -/
theorem wireBits_msgnum {f : WireFrame} (h : 2 ≤ f.len) (j : Nat) (hj : j < 12) :
    (wireBits f.payload)[j]? = some (f.msgnum.getMsbD j) := by
  obtain ⟨r, p, c⟩ := f
  match p, h with
  | a :: b :: rest, _ =>
    simp only [WireFrame.msgnum, List.cons_append, List.getD_cons_zero, List.getD_cons_succ]
    rw [getMsbD_top12 _ _ _ hj]
    have := wireBits_getElem? (a :: b :: rest) (j / 8) (j % 8) (Nat.mod_lt _ (by decide))
    rw [Nat.div_add_mod] at this
    rw [this]
    interval_cases j <;> rfl

/-- A payload that carries a header has message number 1077. -/
theorem WireFrame.CarriesHeader.msgnum_eq {f : WireFrame} {v : Msm7Header} (hv : f.CarriesHeader v) : f.msgnum = msm7Msgnum := by
  have hl := hv.long
  apply BitVec.eq_of_getMsbD_eq
  intro j hj
  have h1 := wireBits_msgnum (f := f) (by omega) j hj
  have h2 : ((wireBits f.payload).take 245)[j]? = (wireBits f.payload)[j]? := List.getElem?_take_of_lt (by omega)
  rw [hv, bitsOf_getElem?, if_pos (by omega), h1, Option.some_inj] at h2
  rw [← h2, getMsbD_append_front _ _ hj]

/-- Reading a carried header gives its fields (42_msm7_reader.md R131). -/
theorem readMsm7_of_header {s : State} {f : WireFrame} {v : Msm7Header} (h : s.HoldsFrame f) (hv : f.CarriesHeader v) :
    readMsm7 s f.len = .ok v := by
  have hl := hv.long
  have field : ∀ {w : Nat} (x : BitVec w) (c : Nat), c + w ≤ 233 →
      (∀ j, j < w → v.wire.getMsbD (c + j) = x.getMsbD j) →
      cursorRead s (24 + 8 * f.len) (36 + c) w = .ok x := by
    intro w x c hcw hx
    rw [cursorRead, if_neg (by omega)]
    refine readBits_of_bits x fun j hj => ?_
    rw [Nat.add_assoc, frameBit_of_header h hv (by omega), hx j hj]
  have e1 := field v.stationId 0 (by omega) fun j hj =>
    (getMsbD_append_front _ _ (by omega)).trans <| (getMsbD_append_front _ _ (by omega)).trans <|
    (getMsbD_append_front _ _ (by omega)).trans <| (getMsbD_append_front _ _ (by omega)).trans <|
    (getMsbD_append_front _ _ (by omega)).trans <| (getMsbD_append_front _ _ (by omega)).trans <|
    (getMsbD_append_front _ _ (by omega)).trans <| (getMsbD_append_front _ _ (by omega)).trans <|
    (getMsbD_append_front _ _ (by omega)).trans <| (getMsbD_append_front _ _ (by omega)).trans <|
    (getMsbD_append_front _ _ (by omega)).trans <| (getMsbD_append_front _ _ (by omega)).trans <|
    (getMsbD_append_front _ _ (by omega)).trans <| by rw [Nat.zero_add]
  have e2 := field v.timeOfWeekMs 12 (by omega) fun j hj =>
    (getMsbD_append_front _ _ (by omega)).trans <| (getMsbD_append_front _ _ (by omega)).trans <|
    (getMsbD_append_front _ _ (by omega)).trans <| (getMsbD_append_front _ _ (by omega)).trans <|
    (getMsbD_append_front _ _ (by omega)).trans <| (getMsbD_append_front _ _ (by omega)).trans <|
    (getMsbD_append_front _ _ (by omega)).trans <| (getMsbD_append_front _ _ (by omega)).trans <|
    (getMsbD_append_front _ _ (by omega)).trans <| (getMsbD_append_front _ _ (by omega)).trans <|
    (getMsbD_append_front _ _ (by omega)).trans <| (getMsbD_append_front _ _ (by omega)).trans <|
    getMsbD_append_back _ _ _ j (by omega)
  have e3 := field v.syncFlag 42 (by omega) fun j hj =>
    (getMsbD_append_front _ _ (by omega)).trans <| (getMsbD_append_front _ _ (by omega)).trans <|
    (getMsbD_append_front _ _ (by omega)).trans <| (getMsbD_append_front _ _ (by omega)).trans <|
    (getMsbD_append_front _ _ (by omega)).trans <| (getMsbD_append_front _ _ (by omega)).trans <|
    (getMsbD_append_front _ _ (by omega)).trans <| (getMsbD_append_front _ _ (by omega)).trans <|
    (getMsbD_append_front _ _ (by omega)).trans <| (getMsbD_append_front _ _ (by omega)).trans <|
    (getMsbD_append_front _ _ (by omega)).trans <| getMsbD_append_back _ _ _ j (by omega)
  have e4 := field v.issueOfData 43 (by omega) fun j hj =>
    (getMsbD_append_front _ _ (by omega)).trans <| (getMsbD_append_front _ _ (by omega)).trans <|
    (getMsbD_append_front _ _ (by omega)).trans <| (getMsbD_append_front _ _ (by omega)).trans <|
    (getMsbD_append_front _ _ (by omega)).trans <| (getMsbD_append_front _ _ (by omega)).trans <|
    (getMsbD_append_front _ _ (by omega)).trans <| (getMsbD_append_front _ _ (by omega)).trans <|
    (getMsbD_append_front _ _ (by omega)).trans <| (getMsbD_append_front _ _ (by omega)).trans <|
    getMsbD_append_back _ _ _ j (by omega)
  have e5 := field v.timeS 46 (by omega) fun j hj =>
    (getMsbD_append_front _ _ (by omega)).trans <| (getMsbD_append_front _ _ (by omega)).trans <|
    (getMsbD_append_front _ _ (by omega)).trans <| (getMsbD_append_front _ _ (by omega)).trans <|
    (getMsbD_append_front _ _ (by omega)).trans <| (getMsbD_append_front _ _ (by omega)).trans <|
    (getMsbD_append_front _ _ (by omega)).trans <| (getMsbD_append_front _ _ (by omega)).trans <|
    (getMsbD_append_front _ _ (by omega)).trans <| getMsbD_append_back _ _ _ j (by omega)
  have e6 := field v.clockSteering 53 (by omega) fun j hj =>
    (getMsbD_append_front _ _ (by omega)).trans <| (getMsbD_append_front _ _ (by omega)).trans <|
    (getMsbD_append_front _ _ (by omega)).trans <| (getMsbD_append_front _ _ (by omega)).trans <|
    (getMsbD_append_front _ _ (by omega)).trans <| (getMsbD_append_front _ _ (by omega)).trans <|
    (getMsbD_append_front _ _ (by omega)).trans <| (getMsbD_append_front _ _ (by omega)).trans <|
    getMsbD_append_back _ _ _ j (by omega)
  have e7 := field v.externalClock 55 (by omega) fun j hj =>
    (getMsbD_append_front _ _ (by omega)).trans <| (getMsbD_append_front _ _ (by omega)).trans <|
    (getMsbD_append_front _ _ (by omega)).trans <| (getMsbD_append_front _ _ (by omega)).trans <|
    (getMsbD_append_front _ _ (by omega)).trans <| (getMsbD_append_front _ _ (by omega)).trans <|
    (getMsbD_append_front _ _ (by omega)).trans <| getMsbD_append_back _ _ _ j (by omega)
  have e8 := field v.smoothingIndicator 57 (by omega) fun j hj =>
    (getMsbD_append_front _ _ (by omega)).trans <| (getMsbD_append_front _ _ (by omega)).trans <|
    (getMsbD_append_front _ _ (by omega)).trans <| (getMsbD_append_front _ _ (by omega)).trans <|
    (getMsbD_append_front _ _ (by omega)).trans <| (getMsbD_append_front _ _ (by omega)).trans <|
    getMsbD_append_back _ _ _ j (by omega)
  have e9 := field v.smoothingIntervalS 59 (by omega) fun j hj =>
    (getMsbD_append_front _ _ (by omega)).trans <| (getMsbD_append_front _ _ (by omega)).trans <|
    (getMsbD_append_front _ _ (by omega)).trans <| (getMsbD_append_front _ _ (by omega)).trans <|
    (getMsbD_append_front _ _ (by omega)).trans <| getMsbD_append_back _ _ _ j (by omega)
  have e10 := field v.satelliteCount 62 (by omega) fun j hj =>
    (getMsbD_append_front _ _ (by omega)).trans <| (getMsbD_append_front _ _ (by omega)).trans <|
    (getMsbD_append_front _ _ (by omega)).trans <| (getMsbD_append_front _ _ (by omega)).trans <|
    getMsbD_append_back _ _ _ j (by omega)
  have e11 := field v.signalCount 68 (by omega) fun j hj =>
    (getMsbD_append_front _ _ (by omega)).trans <| (getMsbD_append_front _ _ (by omega)).trans <|
    (getMsbD_append_front _ _ (by omega)).trans <| getMsbD_append_back _ _ _ j (by omega)
  have e12 := field v.cellMask 73 (by omega) fun j hj =>
    (getMsbD_append_front _ _ (by omega)).trans <| (getMsbD_append_front _ _ (by omega)).trans <|
    getMsbD_append_back _ _ _ j (by omega)
  have e13 := field v.satelliteMask 137 (by omega) fun j hj =>
    (getMsbD_append_front _ _ (by omega)).trans <| getMsbD_append_back _ _ _ j (by omega)
  have e14 := field v.signalMask 201 (by omega) fun j hj =>
    getMsbD_append_back _ _ _ j (by omega)
  norm_num only at e1 e2 e3 e4 e5 e6 e7 e8 e9 e10 e11 e12 e13 e14
  simp only [readMsm7, e1, e2, e3, e4, e5, e6, e7, e8, e9, e10, e11, e12, e13, e14, engine_ok_bind]
  rfl

end Sys2Proof.Machine
end

