-- ==== Sys2Proof/Laws/Commands.lean ====
section
/-! SUPPORT. Everything a command can do, said once: what a frame command completes with, what a time command completes
with, and the one fault. -/

namespace Sys2Proof.Machine

/-! ### The frame commands -/

/-- What a frame command that parsed `f` completes with: ERR, the advisories, group C and group M. -/
inductive FrameResult (s : State) (f : FrameRegs) : Instr → ErrKind → Advisories → CrcRegs → Msm7Regs → Prop where
  | parsed : FrameResult s f .frameParse .noError .clear .zero .zero
  | checked (c : BitVec 24) (h : frameCrc s (f.frmLen.toNat + 3) = .ok c) :
      FrameResult s f .crcCheck .noError (crcAdvisory c f.crcRecv) (compareCrc c f.crcRecv) .zero
  | gated (h : ¬ (f.msgnum = msm7Msgnum ∧ f.mnInPayload = true)) :
      FrameResult s f .msm7Decode .unsupportedMessageType .clear .zero .zero
  | headerShort (h : f.msgnum = msm7Msgnum ∧ f.mnInPayload = true) (e : ErrKind)
      (hr : readMsm7 s f.frmLen.toNat = .error (.raised e)) :
      FrameResult s f .msm7Decode e .clear .zero .zero
  | header (h : f.msgnum = msm7Msgnum ∧ f.mnInPayload = true) (v : Msm7Header)
      (hr : readMsm7 s f.frmLen.toNat = .ok v) :
      FrameResult s f .msm7Decode .noError ⟨false, false, towOutOfRange v.timeOfWeekMs⟩ .zero (msm7Registers v)
  | skipped (hc : f.frmClass ≠ .msm7) (c : BitVec 24) (h : frameCrc s (f.frmLen.toNat + 3) = .ok c) :
      FrameResult s f .frameDecode .noError (crcAdvisory c f.crcRecv) (compareCrc c f.crcRecv) .zero
  | decodedShort (hc : f.frmClass = .msm7) (c : BitVec 24) (h : frameCrc s (f.frmLen.toNat + 3) = .ok c) (e : ErrKind)
      (hr : readMsm7 s f.frmLen.toNat = .error (.raised e)) :
      FrameResult s f .frameDecode e (crcAdvisory c f.crcRecv) (compareCrc c f.crcRecv) .zero
  | decoded (hc : f.frmClass = .msm7) (c : BitVec 24) (h : frameCrc s (f.frmLen.toNat + 3) = .ok c) (v : Msm7Header)
      (hr : readMsm7 s f.frmLen.toNat = .ok v) :
      FrameResult s f .frameDecode .noError
        { crcAdvisory c f.crcRecv with towRange := towOutOfRange v.timeOfWeekMs }
        (compareCrc c f.crcRecv) (msm7Registers v)

/-- A result the reads give is what the command completes with. -/
theorem exec_of_frameResult {s : State} {f : FrameRegs} {i : Instr} {e : ErrKind} {a : Advisories} {c : CrcRegs}
    {m : Msm7Regs} (hp : parseFrame s = .ok f) (h : FrameResult s f i e a c m) :
    exec i s = .next (s.afterFrameCommand (opcodeOf i) e a f c m) := by
  have hsame : ∀ (t : State) (n : Nat), t.fbuf = s.fbuf → t.frameBase = s.frameBase → SameBytes s t n :=
    fun t n h1 h2 k _ => by simp only [frameByte, fb, h1, h2]
  have hcrc : ∀ (t : State) (n : Nat), t.fbuf = s.fbuf → t.frameBase = s.frameBase → frameCrc t n = frameCrc s n :=
    fun t n h1 h2 => (hsame t n h1 h2).frameCrc (Nat.le_refl _)
  have hmsm : ∀ (t : State) (n : Nat), t.fbuf = s.fbuf → t.frameBase = s.frameBase → readMsm7 t n = readMsm7 s n :=
    fun t n h1 h2 => (hsame t _ h1 h2).readMsm7
  cases h with
  | parsed => simp only [exec, execFrameParse, withParsedFrame_ok hp]; rfl
  | checked c h =>
    simp only [exec, execCrcCheck, withParsedFrame_ok hp, withFrameCrc]
    rw [hcrc { clearFrameGroups s with groupF := f } _ rfl rfl, h]; rfl
  | gated h => simp only [exec, execMsm7Decode, withParsedFrame_ok hp, if_neg h]; rfl
  | headerShort h e hr =>
    simp only [exec, execMsm7Decode, withParsedFrame_ok hp, if_pos h, decodeMsm7Header]
    rw [hmsm { clearFrameGroups s with groupF := f } _ rfl rfl, hr]; rfl
  | header h v hr =>
    simp only [exec, execMsm7Decode, withParsedFrame_ok hp, if_pos h, decodeMsm7Header]
    rw [hmsm { clearFrameGroups s with groupF := f } _ rfl rfl, hr]; rfl
  | skipped hc c h =>
    simp only [exec, execFrameDecode, withParsedFrame_ok hp, withFrameCrc]
    rw [hcrc { clearFrameGroups s with groupF := f } _ rfl rfl, h]
    cases hcl : f.frmClass with
    | msm7 => exact absurd hcl hc
    | generic => rfl
    | unrecognized => rfl
    | noFrame => rfl
  | decodedShort hc c h e hr =>
    simp only [exec, execFrameDecode, withParsedFrame_ok hp, withFrameCrc]
    rw [hcrc { clearFrameGroups s with groupF := f } _ rfl rfl, h]
    simp only [hc, decodeMsm7Header]
    rw [hmsm { clearFrameGroups s with groupF := f, groupC := compareCrc c f.crcRecv } _ rfl rfl, hr]; rfl
  | decoded hc c h v hr =>
    simp only [exec, execFrameDecode, withParsedFrame_ok hp, withFrameCrc]
    rw [hcrc { clearFrameGroups s with groupF := f } _ rfl rfl, h]
    simp only [hc, decodeMsm7Header]
    rw [hmsm { clearFrameGroups s with groupF := f, groupC := compareCrc c f.crcRecv } _ rfl rfl, hr]; rfl

/-- A frame command whose CRC or header read meets an unwritten byte is a fault. -/
theorem exec_of_unwritten_stage {s : State} {f : FrameRegs} {k : Nat} (hp : parseFrame s = .ok f) :
    (frameCrc s (f.frmLen.toNat + 3) = .error (.unwritten k) →
      exec .crcCheck s = .fault (.unwrittenRead k) ∧ exec .frameDecode s = .fault (.unwrittenRead k)) ∧
    (readMsm7 s f.frmLen.toNat = .error (.unwritten k) →
      (f.msgnum = msm7Msgnum ∧ f.mnInPayload = true → exec .msm7Decode s = .fault (.unwrittenRead k)) ∧
      (∀ c, f.frmClass = .msm7 → frameCrc s (f.frmLen.toNat + 3) = .ok c →
        exec .frameDecode s = .fault (.unwrittenRead k))) := by
  have hsame : ∀ (t : State) (n : Nat), t.fbuf = s.fbuf → t.frameBase = s.frameBase → SameBytes s t n :=
    fun t n h1 h2 k _ => by simp only [frameByte, fb, h1, h2]
  have hcrc : ∀ (t : State) (n : Nat), t.fbuf = s.fbuf → t.frameBase = s.frameBase → frameCrc t n = frameCrc s n :=
    fun t n h1 h2 => (hsame t n h1 h2).frameCrc (Nat.le_refl _)
  have hmsm : ∀ (t : State) (n : Nat), t.fbuf = s.fbuf → t.frameBase = s.frameBase → readMsm7 t n = readMsm7 s n :=
    fun t n h1 h2 => (hsame t _ h1 h2).readMsm7
  refine ⟨fun h => ⟨?_, ?_⟩, fun h => ⟨fun hg => ?_, fun c hc h' => ?_⟩⟩
  · simp only [exec, execCrcCheck, withParsedFrame_ok hp, withFrameCrc]
    rw [hcrc { clearFrameGroups s with groupF := f } _ rfl rfl, h]; rfl
  · simp only [exec, execFrameDecode, withParsedFrame_ok hp, withFrameCrc]
    rw [hcrc { clearFrameGroups s with groupF := f } _ rfl rfl, h]; rfl
  · simp only [exec, execMsm7Decode, withParsedFrame_ok hp, if_pos hg, decodeMsm7Header]
    rw [hmsm { clearFrameGroups s with groupF := f } _ rfl rfl, h]; rfl
  · simp only [exec, execFrameDecode, withParsedFrame_ok hp, withFrameCrc]
    rw [hcrc { clearFrameGroups s with groupF := f } _ rfl rfl, h']
    simp only [hc, decodeMsm7Header]
    rw [hmsm { clearFrameGroups s with groupF := f, groupC := compareCrc c f.crcRecv } _ rfl rfl, h]; rfl

/-- Everything a frame command can do: an error of ParseFrame with every frame group 0, a result of a parsed frame, or a
fault at an unwritten byte between FRAME_BASE and BUF_LEN. -/
theorem exec_frame_cases {i : Instr} (hi : i ∈ frameCommands) (s : State) :
    (∃ e, parseFrame s = .error (.raised e) ∧
      exec i s = .next (s.afterFrameCommand (opcodeOf i) e .clear .zero .zero .zero)) ∨
    (∃ f e a c m, parseFrame s = .ok f ∧ FrameResult s f i e a c m ∧
      exec i s = .next (s.afterFrameCommand (opcodeOf i) e a f c m)) ∨
    ∃ k, exec i s = .fault (.unwrittenRead k) ∧ s.frameBase.toNat ≤ k ∧ k < s.bufLen.toNat ∧ s.fbuf.read k = none := by
  cases hp : parseFrame s with
  | error stop =>
    obtain ⟨rest, hrest⟩ := exec_frame_eq hi s
    cases stop with
    | raised e => exact .inl ⟨e, rfl, hrest.trans (withParsedFrame_raised hp rest)⟩
    | unwritten k =>
      refine .inr (.inr ⟨k, hrest.trans (withParsedFrame_unwritten hp rest), ?_⟩)
      obtain ⟨h1, h2, h3⟩ := parseFrame_stopsWithin s k hp
      simp only [availableBytes] at h2
      exact ⟨by omega, by omega, h3⟩
  | ok f =>
    refine .inr ?_
    have hroom := (parseFrame_ok hp).1
    have result : ∀ {e a c m}, FrameResult s f i e a c m →
        (∃ f' e a c m, (.ok f : Engine FrameRegs) = .ok f' ∧ FrameResult s f' i e a c m ∧
          exec i s = .next (s.afterFrameCommand (opcodeOf i) e a f' c m)) ∨
        ∃ k, exec i s = .fault (.unwrittenRead k) ∧ s.frameBase.toNat ≤ k ∧ k < s.bufLen.toNat ∧
          s.fbuf.read k = none :=
      fun h => .inl ⟨f, _, _, _, _, rfl, h, exec_of_frameResult hp h⟩
    have hcrcIn : ∀ k, frameCrc s (f.frmLen.toNat + 3) = .error (.unwritten k) →
        s.frameBase.toNat ≤ k ∧ k < s.bufLen.toNat ∧ s.fbuf.read k = none := fun k hk => by
      obtain ⟨h1, h2, h3⟩ := frameCrc_stopsWithin (Nat.le_refl _) k hk
      exact ⟨by omega, by omega, h3⟩
    have hmsmIn : ∀ k, readMsm7 s f.frmLen.toNat = .error (.unwritten k) →
        s.frameBase.toNat ≤ k ∧ k < s.bufLen.toNat ∧ s.fbuf.read k = none := fun k hk => by
      obtain ⟨h1, h2, h3⟩ := readMsm7_stopsWithin s _ k hk
      exact ⟨by omega, by omega, h3⟩
    simp only [frameCommands, List.mem_cons, List.not_mem_nil, or_false] at hi
    rcases hi with rfl | rfl | rfl | rfl
    · exact result .parsed
    · cases hc : frameCrc s (f.frmLen.toNat + 3) with
      | ok c => exact result (.checked c hc)
      | error stop =>
        cases stop with
        | raised e => exact absurd hc frameCrc_not_raised
        | unwritten k => exact .inr ⟨k, ((exec_of_unwritten_stage hp).1 hc).1, hcrcIn k hc⟩
    · by_cases hg : f.msgnum = msm7Msgnum ∧ f.mnInPayload = true
      · cases hr : readMsm7 s f.frmLen.toNat with
        | ok v => exact result (.header hg v hr)
        | error stop =>
          cases stop with
          | raised e => exact result (.headerShort hg e hr)
          | unwritten k => exact .inr ⟨k, ((exec_of_unwritten_stage hp).2 hr).1 hg, hmsmIn k hr⟩
      · exact result (.gated hg)
    · cases hc : frameCrc s (f.frmLen.toNat + 3) with
      | error stop =>
        cases stop with
        | raised e => exact absurd hc frameCrc_not_raised
        | unwritten k => exact .inr ⟨k, ((exec_of_unwritten_stage hp).1 hc).2, hcrcIn k hc⟩
      | ok c =>
        by_cases hcl : f.frmClass = .msm7
        · cases hr : readMsm7 s f.frmLen.toNat with
          | ok v => exact result (.decoded hcl c hc v hr)
          | error stop =>
            cases stop with
            | raised e => exact result (.decodedShort hcl c hc e hr)
            | unwritten k => exact .inr ⟨k, ((exec_of_unwritten_stage hp).2 hr).2 c hcl hc, hmsmIn k hr⟩
        · exact result (.skipped hcl c hc)

/-! ### The time commands -/

/-- What a time command completes with, from its operands alone. -/
def timeResult (i : Instr) (s : State) : ErrKind × Advisories × TimeRegs :=
  match i with
  | .towFromUtc =>
    if !validDate (dateYear s.arg0) (dateMonth s.arg0) (dateDay s.arg0) || decide (dayMs ≤ s.arg1.toNat) then
      (.domainError, .clear, .zero)
    else if gpsTotalMs s < 0 then (.domainError, .clear, .zero)
    else (.noError, .clear, ⟨BitVec.ofInt 32 (gpsTotalMs s / weekMs), BitVec.ofInt 32 (gpsTotalMs s % weekMs)⟩)
  | .utcFromTow =>
    if weekMs ≤ s.arg1.toNat then (.domainError, .clear, .zero)
    else if utcElapsedMs s < 0 then (.domainError, .clear, .zero)
    else
      let date := civilFromDays (utcElapsedMs s / dayMs + epochDays)
      if 65535 < date.1 then (.domainError, .clear, .zero)
      else (.noError, .clear,
        ⟨dateWord date.1.toNat date.2.1.toNat date.2.2.toNat, BitVec.ofInt 32 (utcElapsedMs s % dayMs)⟩)
  | _ =>
    let mis := timesMisaligned (absDifference s.arg0 s.arg1) s.arg2.toNat
    (.noError, ⟨false, mis, false⟩, ⟨BitVec.ofNat 32 (absDifference s.arg0 s.arg1), if mis then 1 else 0⟩)

/-- Everything a time command can do: it completes with its result. -/
theorem exec_time_eq {i : Instr} (hi : i ∈ timeCommands) (s : State) :
    exec i s = .next (s.afterTimeCommand (opcodeOf i) (timeResult i s).1 (timeResult i s).2.1 (timeResult i s).2.2) := by
  simp only [timeCommands, List.mem_cons, List.not_mem_nil, or_false] at hi
  rcases hi with rfl | rfl | rfl
  · simp only [exec, execTowFromUtc, timeResult]
    split
    · rfl
    · split <;> rfl
  · simp only [exec, execUtcFromTow, timeResult]
    split
    · rfl
    · split
      · rfl
      · split <;> rfl
  · rfl

/-- A time command's result depends on ARG0 to ARG2 and LEAP_SECONDS alone (44_gps_time.md R168). -/
theorem timeResult_congr {i : Instr} {s s' : State} (h0 : s'.arg0 = s.arg0) (h1 : s'.arg1 = s.arg1)
    (h2 : s'.arg2 = s.arg2) (hl : s'.leapSeconds = s.leapSeconds) : timeResult i s' = timeResult i s := by
  obtain ⟨⟩ := s
  obtain ⟨⟩ := s'
  dsimp only at h0 h1 h2 hl
  subst h0 h1 h2 hl
  cases i <;> rfl

/-- Every command is a frame command or a time command. -/
theorem frame_or_time (i : Instr) : i ∈ frameCommands ∨ i ∈ timeCommands := by cases i <;> decide

end Sys2Proof.Machine
end

