-- ==== Sys2Proof/Laws/Crc.lean ====
section
/-! SUPPORT. The single-bit and single-byte steps of the CRC: linear, injective on 24 bits, and a plain shift where the
top bits are 0 (41_crc24q.md R120). -/

namespace Sys2Proof.Machine

/-- One single-bit step without its test: shift, and fold bit 23 back in. -/
theorem crcBitStep_eq (acc : BitVec 25) :
    crcBitStep acc = ((acc <<< 1) ^^^ (if acc.getLsbD 23 then crcPoly else 0#25)) &&& 0xFFFFFF#25 := by
  have h : (acc <<< 1).getLsbD 24 = acc.getLsbD 23 := by
    rw [BitVec.getLsbD_shiftLeft]; simp
  unfold crcBitStep
  simp only [h]
  split <;> simp

/-- A step leaves 24 bits. -/
theorem crcBitStep_top (acc : BitVec 25) : (crcBitStep acc).getLsbD 24 = false := by
  rw [crcBitStep_eq, BitVec.getLsbD_and]
  simp

/-- The single-bit step is linear. -/
theorem crcBitStep_xor (a b : BitVec 25) : crcBitStep (a ^^^ b) = crcBitStep a ^^^ crcBitStep b := by
  rw [crcBitStep_eq, crcBitStep_eq, crcBitStep_eq, BitVec.getLsbD_xor, BitVec.shiftLeft_xor_distrib]
  apply BitVec.eq_of_getLsbD_eq
  intro i hi
  simp only [BitVec.getLsbD_and, BitVec.getLsbD_xor]
  generalize (a <<< 1).getLsbD i = p
  generalize (b <<< 1).getLsbD i = q
  generalize (16777215#25).getLsbD i = m
  cases a.getLsbD 23 <;> cases b.getLsbD 23 <;>
    simp only [Bool.xor_false, Bool.xor_true, Bool.not_true, Bool.not_false, if_true, Bool.false_eq_true, if_false,
      BitVec.getLsbD_zero] <;>
    cases crcPoly.getLsbD i <;> revert p q m <;> decide

/-- The single-bit step loses nothing of 24 bits: only 0 steps to 0. -/
theorem crcBitStep_eq_zero {a : BitVec 25} (ht : a.getLsbD 24 = false) (h : crcBitStep a = 0#25) : a = 0#25 := by
  rw [crcBitStep_eq] at h
  have bit : ∀ i, i < 24 →
      ((a <<< 1).getLsbD i ^^ (if a.getLsbD 23 then crcPoly else 0#25).getLsbD i) = false := by
    intro i hi
    have := congrArg (fun v : BitVec 25 => v.getLsbD i) h
    simp only [BitVec.getLsbD_and, BitVec.getLsbD_xor] at this
    have hm : (16777215#25).getLsbD i = true := by interval_cases i <;> rfl
    rw [hm, Bool.and_true] at this
    simpa using this
  have h23 : a.getLsbD 23 = false := by
    have h0 := bit 0 (by omega)
    cases h : a.getLsbD 23 with
    | false => rfl
    | true =>
      rw [h, if_pos rfl, BitVec.getLsbD_shiftLeft, show crcPoly.getLsbD 0 = true by decide] at h0
      simp at h0
  simp only [h23, Bool.false_eq_true, if_false] at bit
  apply BitVec.eq_of_getLsbD_eq
  intro i hi
  have : i = 24 ∨ i = 23 ∨ i + 1 < 24 := by omega
  obtain rfl | rfl | h := this
  · rw [ht, BitVec.getLsbD_zero]
  · rw [h23, BitVec.getLsbD_zero]
  · have := bit (i + 1) h
    rw [BitVec.getLsbD_shiftLeft] at this
    simp at this
    simpa using this (by omega)

/-- Where bit 23 is 0 the single-bit step is a plain shift. -/
theorem crcBitStep_shift {a : BitVec 25} (h23 : a.getLsbD 23 = false) :
    crcBitStep a = a <<< 1 := by
  rw [crcBitStep_eq, h23]
  apply BitVec.eq_of_getLsbD_eq
  intro i hi
  simp only [BitVec.getLsbD_and, BitVec.getLsbD_xor, Bool.false_eq_true, if_false]
  have : i = 24 ∨ i < 24 := by omega
  obtain rfl | h := this
  · rw [BitVec.getLsbD_shiftLeft, show 24 - 1 = 23 from rfl, h23]; simp
  · have hm : (16777215#25).getLsbD i = true := by interval_cases i <;> rfl
    rw [hm]; simp

/-- The steps repeated: linear. -/
theorem crcBitSteps_xor (n : Nat) (a b : BitVec 25) :
    Nat.iterate crcBitStep n (a ^^^ b) = Nat.iterate crcBitStep n a ^^^ Nat.iterate crcBitStep n b := by
  induction n generalizing a b with
  | zero => rfl
  | succ n ih => simp only [Function.iterate_succ_apply, crcBitStep_xor, ih]

/-- The steps repeated: only 0 steps to 0. -/
theorem crcBitSteps_eq_zero (n : Nat) {a : BitVec 25} (ht : a.getLsbD 24 = false)
    (h : Nat.iterate crcBitStep n a = 0#25) : a = 0#25 := by
  induction n generalizing a with
  | zero => exact h
  | succ n ih =>
    rw [Function.iterate_succ_apply] at h
    exact crcBitStep_eq_zero ht (ih (crcBitStep_top a) h)

/-- A byte step is linear in the accumulator and the byte together. -/
theorem crcByteStep_xor (a b : BitVec 25) (x y : Byte) :
    crcByteStep (a ^^^ b) (x ^^^ y) = crcByteStep a x ^^^ crcByteStep b y := by
  unfold crcByteStep
  have h : (a ^^^ b) ^^^ ((x ^^^ y).setWidth 25 <<< 16) =
      (a ^^^ (x.setWidth 25 <<< 16)) ^^^ (b ^^^ (y.setWidth 25 <<< 16)) := by
    rw [BitVec.setWidth_xor, BitVec.shiftLeft_xor_distrib]
    generalize x.setWidth 25 <<< 16 = u
    generalize y.setWidth 25 <<< 16 = v
    rw [BitVec.xor_assoc, BitVec.xor_assoc, ← BitVec.xor_assoc b u v, BitVec.xor_comm b u, BitVec.xor_assoc u b v]
  rw [h, crcBitSteps_xor]

/-- A byte step leaves 24 bits. -/
theorem crcByteStep_top (a : BitVec 25) (x : Byte) : (crcByteStep a x).getLsbD 24 = false := by
  unfold crcByteStep
  exact (congrArg (BitVec.getLsbD · 24) (Function.iterate_succ_apply' crcBitStep 7 _)).trans (crcBitStep_top _)

end Sys2Proof.Machine
end

