-- ==== Sys2Proof/Laws/Decode.lean ====
section
/-! SUPPORT. The decoder and the encoder agree, and no two rows of the opcode map overlap. -/

namespace Sys2Proof

/-- No word belongs to two rows. -/
theorem opcodeMap_disjoint : opcodeMap.Pairwise fun a b => a.pattern &&& b.mask ≠ b.pattern := by decide

/-- Decoding as a chain of comparisons with the seven match values. -/
theorem decode_eq (w : Word) :
    decode w =
      if w = 0x00000001#32 then .ok .frameParse else if w = 0x00000002#32 then .ok .crcCheck
      else if w = 0x00000003#32 then .ok .msm7Decode else if w = 0x00000004#32 then .ok .frameDecode
      else if w = 0x00000010#32 then .ok .towFromUtc else if w = 0x00000011#32 then .ok .utcFromTow
      else if w = 0x00000012#32 then .ok .towCompare
      else if commandWordReservedZero w then .error .unassignedOpcode else .error .reservedBitsSet := by
  have hm : ∀ v : Word, v &&& 0xFFFFFFFF#32 = v := fun v => by
    have : (0xFFFFFFFF#32) = BitVec.allOnes 32 := by decide
    rw [this, BitVec.and_allOnes]
  by_cases h : w ∈ [0x1#32, 0x2#32, 0x3#32, 0x4#32, 0x10#32, 0x11#32, 0x12#32]
  · simp only [List.mem_cons, List.not_mem_nil, or_false] at h
    rcases h with rfl | rfl | rfl | rfl | rfl | rfl | rfl <;> rfl
  · simp only [List.mem_cons, List.not_mem_nil, or_false, not_or] at h
    obtain ⟨h1, h2, h3, h4, h5, h6, h7⟩ := h
    have e : ∀ {a : Word}, w ≠ a → (w == a) = false := fun h => by simpa using h
    simp [decode, opcodeMap, hm, e h1, e h2, e h3, e h4, e h5, e h6, e h7, h1, h2, h3, h4, h5, h6, h7]

end Sys2Proof
end

