-- ==== Sys2Proof/Laws/Msm7.lean ====
section
/-! SUPPORT. The active indices of a mask and what group M shows of them (30_encoding.md R86; 42_msm7_reader.md R136). -/

namespace Sys2Proof.Machine

/-- The k-th number below n that satisfies p. -/
theorem filter_range_getElem (p : Nat → Bool) (n k : Nat) (h : k < ((List.range n).filter p).length) :
    let x := ((List.range n).filter p)[k]
    x < n ∧ p x = true ∧ (List.range x).countP p = k := by
  induction n with
  | zero => simp at h
  | succ n ih =>
    simp only [List.range_succ, List.filter_append] at h ⊢
    by_cases hk : k < ((List.range n).filter p).length
    · rw [List.getElem_append_left hk]
      obtain ⟨a, b, c⟩ := ih hk
      exact ⟨by omega, b, c⟩
    · by_cases hp : p n = true
      · simp [hp] at h
        have hk' : k = ((List.range n).filter p).length := by omega
        rw [List.getElem_append_right (by omega)]
        simp [hp]
        rw [List.countP_eq_length_filter]; exact hk'.symm
      · simp [hp] at h; omega

/-- The active indices, filtered from 0 .. n. -/
theorem activeIndices_eq {n : Nat} (mask : BitVec n) :
    activeIndices mask = (List.range (n+1)).filter fun i => decide (1 ≤ i) && mask.getLsbD (n - i) := by
  unfold activeIndices
  rw [List.range_succ_eq_map, List.filter_cons]
  simp only [Nat.le_zero, Nat.one_ne_zero, decide_false, Bool.false_and]
  simp
  rw [List.filter_map]
  rw [List.filter_map]
  rw [show ((fun i => decide (1 ≤ i) && mask.getLsbD (n - i)) ∘ Nat.succ) = ((fun i => mask.getLsbD (n - i)) ∘ fun x => x + 1) from ?_]
  funext i; simp

/-- The k-th active index is active and has exactly k active indices below it. -/
theorem activeIndices_getElem {n : Nat} (mask : BitVec n) (k : Nat) (h : k < (activeIndices mask).length) :
    let x := (activeIndices mask)[k]
    1 ≤ x ∧ x ≤ n ∧ mask.getLsbD (n - x) = true ∧
      (List.range x).countP (fun j => decide (1 ≤ j) && mask.getLsbD (n - j)) = k := by
  have h' := h
  rw [activeIndices_eq] at h'
  have := filter_range_getElem _ (n+1) k h'
  simp only [Bool.and_eq_true, decide_eq_true_eq] at this
  simp only [activeIndices_eq]
  refine ⟨this.2.1.1, by omega, this.2.1.2, this.2.2⟩

/-- There are as many active indices as bits that are 1. -/
theorem activeIndices_length {n : Nat} (mask : BitVec n) :
    (activeIndices mask).length = (List.range n).countP (fun b => mask.getLsbD b) := by
  unfold activeIndices
  rw [List.filter_map, List.length_map, ← List.countP_eq_length_filter]
  have : (List.range n).countP (fun b => mask.getLsbD b) = (List.range n).reverse.countP (fun b => mask.getLsbD b) := by
    rw [List.countP_reverse]
  have hr : (List.range n).reverse = (List.range n).map (fun x => n - 1 - x) := by
    apply List.ext_getElem
    · simp
    · intro i h1 h2; simp
  rw [this, hr, List.countP_map]
  apply List.countP_congr
  intro x hx
  rw [List.mem_range] at hx
  simp
  rw [show n - (x + 1) = n - 1 - x by omega]

/-- At most as many active indices as bits. -/
theorem activeIndices_length_le {n : Nat} (mask : BitVec n) : (activeIndices mask).length ≤ n := by
  rw [activeIndices_length]; exact (List.countP_le_length).trans (by simp)

/-- A mask from its two registers. -/
theorem mask_of_halves (x : BitVec 64) : x.extractLsb' 32 32 ++ x.extractLsb' 0 32 = x := by
    apply BitVec.eq_of_getLsbD_eq
    intro i hi
    simp only [BitVec.getLsbD_append, BitVec.getLsbD_extractLsb']
    split
    · simp [*]
    · have h1 : i - 32 < 32 := by omega
      have h2 : 32 + (i - 32) = i := by omega
      simp [h1, h2]

/-- The cleared group M is consistent. -/
theorem Msm7Regs.zero_consistent : Msm7Regs.zero.Consistent := by
  constructor <;> decide +kernel

/-- Every header's group M is consistent. -/
theorem msm7Registers_consistent (v : Msm7Header) : (msm7Registers v).Consistent := by
  have h := mask_of_halves v.satelliteMask
  constructor <;> simp only [msm7Registers] <;> rw [h]

end Sys2Proof.Machine
end

