-- ==== Sys2Proof/Laws/PerInstr.lean ====
section
/-! SUPPORT. Facts of every command as syntax, one lemma per constructor. -/

/-- A command's word has its RSVD bits zero and an assigned opcode, and the command is well formed
(30_encoding.md R80, R82). -/
def Sys2Proof.Laws.EncodedWord.Statement (i : Sys2Proof.Instr) : Prop :=
  i.wellFormed = true ∧ Sys2Proof.commandWordWellFormed (Sys2Proof.encode i) = true

theorem Sys2Proof.Laws.EncodedWord.frameParse : Sys2Proof.Laws.EncodedWord.Statement .frameParse := ⟨rfl, by decide⟩
theorem Sys2Proof.Laws.EncodedWord.crcCheck : Sys2Proof.Laws.EncodedWord.Statement .crcCheck := ⟨rfl, by decide⟩
theorem Sys2Proof.Laws.EncodedWord.msm7Decode : Sys2Proof.Laws.EncodedWord.Statement .msm7Decode := ⟨rfl, by decide⟩
theorem Sys2Proof.Laws.EncodedWord.frameDecode : Sys2Proof.Laws.EncodedWord.Statement .frameDecode := ⟨rfl, by decide⟩
theorem Sys2Proof.Laws.EncodedWord.towFromUtc : Sys2Proof.Laws.EncodedWord.Statement .towFromUtc := ⟨rfl, by decide⟩
theorem Sys2Proof.Laws.EncodedWord.utcFromTow : Sys2Proof.Laws.EncodedWord.Statement .utcFromTow := ⟨rfl, by decide⟩
theorem Sys2Proof.Laws.EncodedWord.towCompare : Sys2Proof.Laws.EncodedWord.Statement .towCompare := ⟨rfl, by decide⟩
end

