-- ==== Sys2Proof/Laws/Step.lean ====
section
/-! SUPPORT. Everything a step can do, said once. -/

namespace Sys2Proof.Machine

/-- The state a step starts its work from: the first input is used up. -/
abbrev State.taken (s : State) : State := { s with inputs := s.inputs.tail }

/-- Everything a step that answers a next state can have done. -/
inductive StepNext (s : State) : State → Prop where
  /-- An idle engine, an access to another device, a held block, a release of an input that is not asserted. -/
  | quiet : StepNext s s.taken
  /-- An accepted read. -/
  | read (off : Nat) (v : Word) (d : Nat) (hr : s.inReset = false) :
      StepNext s { s.taken with replies := ⟨off, v⟩ :: s.replies, draws := d }
  /-- An accepted write. -/
  | write (off : Nat) (r : Reg) (v : Word) (hr : regAt s.config off = some r) (hw : r.writable = true)
      (hp : s.pending = none) (hres : s.inReset = false) : StepNext s (writeReg s.taken r v)
  /-- The engine executes the pending word. -/
  | command (w : Word) (t : State) (hp : s.pending = some w) (hres : s.inReset = false) (h : runCommandWord w s.taken = .next t) :
      StepNext s t
  /-- The reset input. -/
  | reset (b : Bool) : StepNext s { resetBlock s.taken with inReset := b }

/-- Everything a host access that answers a next state can have done. -/
theorem hostAccess_next {a : HostAccess} {s t : State} (h : hostAccess a s = .next t) :
    t = s ∨ (∃ off v d, t = { s with replies := ⟨off, v⟩ :: s.replies, draws := d }) ∨
    ∃ off r v, regAt s.config off = some r ∧ r.writable = true ∧ s.pending = none ∧ t = writeReg s r v := by
  unfold hostAccess at h
  split at h
  · cases h; exact .inl rfl
  · rename_i off hoff
    unfold accessAt at h
    split at h
    · cases h
    · split at h
      · cases h
      · rename_i r hr
        split at h
        · refine .inr (.inl ?_)
          unfold hostRead at h
          split at h
          · unfold readWhilePending at h
            split at h
            · cases h; exact ⟨_, _, _, rfl⟩
            · cases h; exact ⟨_, _, _, rfl⟩
            · cases h; exact ⟨_, _, _, rfl⟩
          · split at h
            · cases h; exact ⟨_, _, _, rfl⟩
            · cases h
            · cases h
        · refine .inr (.inr ?_)
          unfold hostWrite at h
          split at h
          · cases h
          · rename_i hw
            split at h
            · cases h
            · rename_i hb
              cases h
              refine ⟨off, r, _, hr, ?_, ?_, rfl⟩
              · simpa using hw
              · simpa [State.busy] using hb

theorem engineStep_next {s t : State} (h : engineStep s = .next t) :
    (t = s ∧ s.pending = none) ∨ ∃ w, s.pending = some w ∧ runCommandWord w s = .next t := by
  unfold engineStep at h
  split at h
  · cases h; exact .inl ⟨rfl, by assumption⟩
  · exact .inr ⟨_, by assumption, h⟩

/-- The inversion of `step`. -/
theorem step_next {s t : State} (h : step s = .next t) : StepNext s t := by
  have engine : ∀ u : State, s.inReset = false → u = s.taken → engineStep u = .next t → StepNext s t := by
    rintro u hres rfl h
    obtain ⟨rfl, -⟩ | ⟨w, hw, h⟩ := engineStep_next h
    · exact .quiet
    · exact .command w t hw hres h
  unfold step at h
  split at h
  · rename_i hi
    have hs : s = s.taken := by rw [State.taken, hi, List.tail_nil, ← hi]
    unfold quietStep at h
    split at h
    · cases h
      rw (occs := .pos [2]) [hs]
      exact .quiet
    · rename_i hres
      exact engine s (by simpa using hres) hs h
  · rename_i input rest hi
    have hs : ({ s with inputs := rest } : State) = s.taken := by rw [State.taken, hi, List.tail_cons]
    rw [hs] at h
    have release : releaseReset s.taken = t → StepNext s t := by
      rintro rfl
      unfold releaseReset
      split
      · exact .reset false
      · exact .quiet
    split at h
    · cases input with
      | access a => cases h
      | engineTurn => cases h; exact .quiet
      | resetAssert => cases h; exact .reset true
      | resetRelease => exact release (by cases h; rfl)
    · rename_i hres
      have hres : s.inReset = false := by simpa using hres
      cases input with
      | access a =>
        obtain rfl | ⟨off, v, d, rfl⟩ | ⟨off, r, v, hr, hw, hp, rfl⟩ := hostAccess_next h
        · exact .quiet
        · exact .read off v d hres
        · exact .write off r v hr hw hp hres
      | engineTurn => exact engine _ hres rfl h
      | resetAssert => cases h; exact .reset true
      | resetRelease => exact release (by cases h; rfl)

/-- What the host's access does, when it is the next input and the block is not held in reset. -/
theorem step_access {s : State} {a : HostAccess} {off : Nat} {rest : List Input} (h : s.AccessNext a off rest) :
    step s = accessAt off a { s with inputs := rest } := by
  obtain ⟨h1, h2, h3⟩ := h
  simp only [step, h1, h2, Bool.false_eq_true, if_false, runStep, hostAccess, h3]

/-- A step that performs a read of a mapped register. -/
theorem step_read {s : State} {addr off : Nat} {r : Reg} {rest : List Input}
    (h : s.AccessNext (.read .w32 addr) off rest) (hr : regAt s.config off = some r) :
    step s = hostRead off r { s with inputs := rest } := by
  rw [step_access h]; exact accessAt_read hr

/-- A step that performs a write to a mapped register. -/
theorem step_write {s : State} {addr off : Nat} {r : Reg} {v : Word} {rest : List Input}
    (h : s.AccessNext (.write .w32 addr v) off rest) (hr : regAt s.config off = some r) :
    step s = hostWrite off r v { s with inputs := rest } := by
  rw [step_access h]; exact accessAt_write hr

/-- The engine's step, when it is its turn. -/
theorem step_engine {s : State} (hr : s.inReset = false) (hi : s.inputs = [] ∨ s.inputs.head? = some .engineTurn) :
    step s = engineStep s.taken := by
  obtain h | h := hi
  · have hs : s.taken = s := by rw [State.taken, h, List.tail_nil, ← h]
    rw [hs]
    simp only [step, h, quietStep, hr, Bool.false_eq_true, if_false]
  · obtain ⟨rest, h⟩ : ∃ rest, s.inputs = .engineTurn :: rest := by
      cases hs : s.inputs with
      | nil => rw [hs] at h; cases h
      | cons i rest => rw [hs] at h; cases h; exact ⟨rest, rfl⟩
    simp only [step, h, hr, Bool.false_eq_true, if_false, runStep, State.taken, List.tail_cons]

end Sys2Proof.Machine
end

