-- ==== Sys2Proof/Laws/Run.lean ====
section
/-! SUPPORT. The induction over runs, packaged once. -/

namespace Sys2Proof.Machine

/-- What every step keeps, every run keeps. -/
theorem run_keeps {P : State → Prop} (hstep : ∀ s t, P s → step s = .next t → P t) {k : Nat} {s t : State} (hs : P s)
    (h : Sys2Proof.core.run k s = .next t) : P t := by
  induction k generalizing s with
  | zero => cases h; exact hs
  | succ k ih =>
    simp only [Host.Core.run] at h
    split at h
    · exact ih (hstep _ _ hs (by assumption)) h
    · cases h
    · cases h

/-- A step from a final state stays there. -/
theorem step_of_final {s : State} (h : s.Final) : step s = .next s := by
  obtain ⟨h1, h2⟩ := h
  have hs : s.taken = s := by rw [State.taken, h1, List.tail_nil, ← h1]
  cases hr : s.inReset with
  | true => simp only [step, h1, quietStep, hr, if_true]
  | false =>
    rw [step_engine hr (.inl h1), hs]
    simp only [engineStep, h2]

end Sys2Proof.Machine
end

