-- ==== Sys2Proof/Laws/Time.lean ====
section
/-! SUPPORT. The calendar's arithmetic, cut into its steps: eras, years, months (44_gps_time.md R160 to R162). -/

namespace Sys2Proof.Machine

/-- The year-of-era formula of CivilFromDays (44_gps_time.md R161) finds the year: `d` is the day of the year
`100 c + 4 q + t` of an era, counted from 0 on 1 March. -/
theorem yearOfEra_eq (c q t d : Int) (hc0 : 0 ≤ c) (hc : c ≤ 3) (hq0 : 0 ≤ q) (hq : q ≤ 24) (ht0 : 0 ≤ t) (ht : t ≤ 3)
    (hd0 : 0 ≤ d) (hd : d ≤ 365) (hl : d = 365 → t = 3 ∧ (q ≤ 23 ∨ c = 3)) :
    let doe := 36524 * c + 1461 * q + 365 * t + d
    (doe - doe / 1460 + doe / 36524 - doe / 146096) / 365 = 100 * c + 4 * q + t := by
  intro doe
  have h1 : doe / 36524 - doe / 146096 = c := by
    simp only [doe]
    by_cases h : c = 3 ∧ q = 24 ∧ t = 3 ∧ d = 365
    · obtain ⟨rfl, rfl, rfl, rfl⟩ := h; decide
    · have : 1461 * q + 365 * t + d ≤ 36523 := by omega
      have a : (36524 * c + 1461 * q + 365 * t + d) / 36524 = c := by omega
      have b : (36524 * c + 1461 * q + 365 * t + d) / 146096 = 0 := by omega
      omega
  have h2 : ∃ u : Int, doe / 1460 = 25 * c + q + u ∧ (u = 0 ∧ 24 * c + q + 365 * t + d < 1460 ∨ u = 1 ∧ 1460 ≤ 24 * c + q + 365 * t + d) := by
    simp only [doe]
    by_cases h : 24 * c + q + 365 * t + d < 1460
    · exact ⟨0, by omega, .inl ⟨rfl, h⟩⟩
    · exact ⟨1, by omega, .inr ⟨rfl, by omega⟩⟩
  obtain ⟨u, h2, hu⟩ := h2
  have h3 : doe - doe / 1460 + doe / 36524 - doe / 146096 = 36500 * c + 1460 * q + 365 * t + (d - u) := by
    have : doe = 36524 * c + 1461 * q + 365 * t + d := rfl
    omega
  rw [h3]
  omega

/-- A year of an era as century, group of four and year. -/
theorem yearOfEra_split (y : Int) (h0 : 0 ≤ y) (h1 : y ≤ 399) : ∃ c q t : Int, y = 100 * c + 4 * q + t ∧ 0 ≤ c ∧ c ≤ 3 ∧ 0 ≤ q ∧ q ≤ 24 ∧ 0 ≤ t ∧ t ≤ 3 :=
  ⟨y / 100, y % 100 / 4, y % 4, by omega⟩

/-- A day of an era as year and day of the year. -/
theorem dayOfEra_split (doe : Int) (h0 : 0 ≤ doe) (h1 : doe ≤ 146096) : ∃ c q t d : Int, doe = 36524 * c + 1461 * q + 365 * t + d ∧ 0 ≤ c ∧ c ≤ 3 ∧ 0 ≤ q ∧ q ≤ 24 ∧ 0 ≤ t ∧ t ≤ 3 ∧ 0 ≤ d ∧ d ≤ 365 ∧ (d = 365 → t = 3 ∧ (q ≤ 23 ∨ c = 3)) := by
  have key : ∃ c r : Int, doe = 36524 * c + r ∧ 0 ≤ c ∧ c ≤ 3 ∧ 0 ≤ r ∧ (r ≤ 36523 ∨ r = 36524 ∧ c = 3) := by
    by_cases h : doe = 146096
    · exact ⟨3, 36524, by omega⟩
    · exact ⟨doe / 36524, doe % 36524, by omega⟩
  obtain ⟨c, r, hr, c0, c3, r0, r1⟩ := key
  have key2 : ∃ q s : Int, r = 1461 * q + s ∧ 0 ≤ q ∧ q ≤ 24 ∧ 0 ≤ s ∧ s ≤ 1460 := ⟨r / 1461, r % 1461, by omega⟩
  obtain ⟨q, s, hs, q0, q1, s0, s1⟩ := key2
  have key3 : ∃ t d : Int, s = 365 * t + d ∧ 0 ≤ t ∧ t ≤ 3 ∧ 0 ≤ d ∧ d ≤ 365 ∧ (d = 365 → t = 3) := by
    by_cases h : s = 1460
    · exact ⟨3, 365, by omega⟩
    · exact ⟨s / 365, s % 365, by omega⟩
  obtain ⟨t, d, hd, t0, t1, d0, d1, d2⟩ := key3
  exact ⟨c, q, t, d, by omega⟩

/-- The day of an era from year and day of the year (44_gps_time.md R160). -/
theorem dayOfEra_eq (c q t doy : Int) (hq0 : 0 ≤ q) (hq : q ≤ 24) (ht0 : 0 ≤ t) (ht : t ≤ 3) :
   let yoe := 100 * c + 4 * q + t
   365 * yoe + yoe / 4 - yoe / 100 + doy = 36524 * c + 1461 * q + 365 * t + doy := by
  intro yoe
  have : yoe / 4 = 25 * c + q := by simp only [yoe]; omega
  have : yoe / 100 = c := by simp only [yoe]; omega
  simp only [yoe] at *; omega

/-- Month and day come back from the day of the year. -/
theorem month_of_day (mp d : Int) (h0 : 0 ≤ mp) (h1 : mp ≤ 11) (hd : 1 ≤ d) (hd1 : d ≤ 31) (h30 : mp = 1 ∨ mp = 3 ∨ mp = 6 ∨ mp = 8 → d ≤ 30) (hf : mp = 11 → d ≤ 29) : 
   let doy := (153 * mp + 2) / 5 + d - 1
   (5 * doy + 2) / 153 = mp ∧ doy - (153 * mp + 2) / 5 + 1 = d ∧ 0 ≤ doy ∧ doy ≤ 365 ∧ (doy = 365 → mp = 11 ∧ d = 29) := by
  have : mp = 0 ∨ mp = 1 ∨ mp = 2 ∨ mp = 3 ∨ mp = 4 ∨ mp = 5 ∨ mp = 6 ∨ mp = 7 ∨ mp = 8 ∨ mp = 9 ∨ mp = 10 ∨ mp = 11 := by omega
  rcases this with h | h | h | h | h | h | h | h | h | h | h | h <;> subst h <;> omega

/-- How long a month is (44_gps_time.md R162). -/
theorem daysInMonth_facts (y m d : Nat) (h : d ≤ daysInMonth y m) :
    d ≤ 31 ∧ (m = 4 ∨ m = 6 ∨ m = 9 ∨ m = 11 → d ≤ 30) ∧ (m = 2 → d ≤ 29 ∧ (d = 29 → y % 4 = 0 ∧ (y % 100 ≠ 0 ∨ y % 400 = 0))) := by
  unfold daysInMonth isLeapYear at h
  split at h
  · omega
  · split at h
    · omega
    · split at h
      · split at h
        · rename_i hl
          simp at hl
          omega
        · omega
      · omega

/-- The fields of a DATE word as numbers (30_encoding.md R87). -/
theorem date_fields (w : Word) :
    dateYear w = w.toNat / 65536 ∧ dateMonth w = w.toNat / 256 % 256 ∧ dateDay w = w.toNat % 256 := by
  have h := w.isLt
  refine ⟨?_, ?_, ?_⟩
  · rw [dateYear, BitVec.extractLsb'_toNat, Nat.shiftRight_eq_div_pow]; omega
  · rw [dateMonth, BitVec.extractLsb'_toNat, Nat.shiftRight_eq_div_pow]
  · rw [dateDay, BitVec.extractLsb'_toNat, Nat.shiftRight_zero]

/-- A DATE word as a number. -/
theorem dateWord_eq {y m d : Nat} (hm : m ≤ 12) (hd : d ≤ 31) :
    dateWord y m d = BitVec.ofNat 32 (y * 65536 + m * 256 + d) := by
  apply BitVec.eq_of_toNat_eq
  unfold dateWord
  rw [BitVec.toNat_append, ← Nat.shiftLeft_add_eq_or_of_lt (BitVec.isLt _), Nat.shiftLeft_eq, BitVec.toNat_append,
    ← Nat.shiftLeft_add_eq_or_of_lt (BitVec.isLt _), Nat.shiftLeft_eq]
  simp only [BitVec.toNat_ofNat]
  omega

/-- A date is valid when it is one and not before the epoch (44_gps_time.md R162). -/
theorem validDate_iff (y m d : Nat) :
    validDate y m d = true ↔ 1 ≤ m ∧ m ≤ 12 ∧ 1 ≤ d ∧ d ≤ daysInMonth y m ∧ epochDays ≤ daysFromCivil y m d := by
  simp only [validDate, Bool.and_eq_true, decide_eq_true_eq]
  tauto

end Sys2Proof.Machine
end

