-- ==== Sys2Proof/Machine/HostNotation.lean ====
section
/-! DEFINITION. The host notation of 30_encoding.md R89 and R90 as lists of inputs. Host control flow stays the host's:
WAIT is given for a run in which a stated number of polls find BUSY = 1. -/

namespace Sys2Proof.Machine

/-- `WR <REG>, <value>` at a register's offset (30_encoding.md R89). -/
def wr (c : Config) (off : Nat) (v : Word) : List Input := [.access (.write .w32 (c.blockBase + off) v)]

/-- `RD <REG>` at a register's offset (30_encoding.md R89). -/
def rd (c : Config) (off : Nat) : List Input := [.access (.read .w32 (c.blockBase + off))]

/-- `WR FBUF[i], <byte>` (30_encoding.md R89). -/
def wrFbuf (c : Config) (i : Nat) (b : Byte) : List Input := wr c (0x1000 + 4 * i) (b.setWidth 32)

/-- `LOADF i, b0 b1 ... bn` (30_encoding.md R90). -/
def loadf (c : Config) (i : Nat) : List Byte → List Input
  | [] => []
  | b :: bs => wrFbuf c i b ++ loadf c (i + 1) bs

/-- `WAIT` (30_encoding.md R90) in a run whose first `n` polls find BUSY = 1: the engine steps before the next poll. -/
def wait (c : Config) : Nat → List Input
  | 0 => .engineTurn :: rd c 0x004
  | n + 1 => rd c 0x004 ++ wait c n

/-- `CMD <MNEMONIC>` (30_encoding.md R90). -/
def cmdAndWait (c : Config) (i : Instr) (polls : Nat) : List Input := wr c 0x000 (encode i) ++ wait c polls

end Sys2Proof.Machine
end

