-- ==== Sys2Proof/Tests/Slice0.lean ====
section
/-! SUPPORT. The model's own tests: expected values come from the vectors of spec/95_test_vectors.md and from words written
out from the encoding tables; and one witness for the hypotheses of each statement. -/

namespace Sys2Proof.Tests

open Sys2Proof Sys2Proof.Machine

/-! ### WellFormed: each check refuses an ill-formed term -/

theorem test_standard_build_wellFormed : Config.standard.wellFormed = true := by decide
theorem test_build_base_misaligned : { Config.standard with blockBase := 0x4000 }.wellFormed = false := by decide
theorem test_build_bus_narrow : { Config.standard with hostAddrBits := 14 }.wellFormed = false := by decide
theorem test_build_window_off_bus :
    { Config.standard with blockBase := 0x8000, hostAddrBits := 15 }.wellFormed = false := by decide
theorem test_build_fbuf_small : { Config.standard with fbufSize := 1028 }.wellFormed = false := by decide
theorem test_build_fbuf_large : { Config.standard with fbufSize := 4097 }.wellFormed = false := by decide
theorem test_build_allow_few : { Config.standard with allowN := 4 }.wellFormed = false := by decide
theorem test_build_allow_many : { Config.standard with allowN := 9 }.wellFormed = false := by decide
theorem test_word_reserved_refused :
    commandWordReservedZero 0x00000101#32 = false ∧ commandWordWellFormed 0x00000101#32 = false := by decide
theorem test_word_unassigned_refused :
    commandWordOpcodeAssigned 0x00000005#32 = false ∧ commandWordWellFormed 0x00000013#32 = false := by decide
theorem test_word_wellFormed :
    [0x01#32, 0x02#32, 0x03#32, 0x04#32, 0x10#32, 0x11#32, 0x12#32].all commandWordWellFormed = true := by decide

/-! ### Decoding: words written out bit by bit, RSVD [31:8] then OPCODE [7:0] (30_encoding.md R80, R82) -/

theorem test_decode_frame_parse : decode 0b000000000000000000000000_00000001#32 = .ok .frameParse := by decide
theorem test_decode_crc_check : decode 0b000000000000000000000000_00000010#32 = .ok .crcCheck := by decide
theorem test_decode_msm7_decode : decode 0b000000000000000000000000_00000011#32 = .ok .msm7Decode := by decide
theorem test_decode_frame_decode : decode 0b000000000000000000000000_00000100#32 = .ok .frameDecode := by decide
theorem test_decode_tow_from_utc : decode 0b000000000000000000000000_00010000#32 = .ok .towFromUtc := by decide
theorem test_decode_utc_from_tow : decode 0b000000000000000000000000_00010001#32 = .ok .utcFromTow := by decide
theorem test_decode_tow_compare : decode 0b000000000000000000000000_00010010#32 = .ok .towCompare := by decide
theorem test_decode_refuses_by_name :
    decode 0x00000101#32 = .error .reservedBitsSet ∧ decode 0x00000005#32 = .error .unassignedOpcode := by decide
theorem test_table_word_too_wide : decodeTableWord 40 0x0100000001 = none := by decide

/-! ### Small states -/

/-- Allowlist A5 of 95_test_vectors.md. -/
def allowA5 : Vector AllowEntry 8 :=
  #v[⟨true, 1005⟩, ⟨true, 1077⟩, ⟨true, 1097⟩, ⟨true, 1117⟩, ⟨true, 1127⟩, ⟨false, 0⟩, ⟨false, 0⟩, ⟨false, 0⟩]

/-- The reset state with `bytes` in FBUF from `base` on, BUF_LEN and FRAME_BASE around them, and allowlist A5. -/
def holding (base : Nat) (bytes : List Byte) : State :=
  { State.reset with
    fbuf := ((List.range bytes.length).map (base + ·)).zip bytes
    frameBase := BitVec.ofNat 12 base
    bufLen := BitVec.ofNat 13 (base + bytes.length)
    allow := allowA5 }

/-- The reset state with time operands. -/
def timing (a0 a1 a2 leap : Word) : State := { State.reset with arg0 := a0, arg1 := a1, arg2 := a2, leapSeconds := leap }

/-- The state with a command pending. -/
def pendingOn (w : Word) (s : State) : State := latchCommand w s

def frameE : WireFrame := ⟨0, [], 0x47EA4B⟩
def frameRSV : WireFrame := ⟨63, [], 0x32C24F⟩
def frameL1 : WireFrame := ⟨0, [0xAB], 0x98960F⟩
def frameL2 : WireFrame := ⟨0, [0x43, 0x50], 0x06A27E⟩
def frame1005 : WireFrame :=
  ⟨0, [0x3E, 0xD7, 0xD3, 0x02, 0x02, 0x98, 0x0E, 0xDE, 0xEF, 0x34, 0xB4, 0xBD, 0x62, 0xAC, 0x09, 0x41, 0x98, 0x6F, 0x33],
    0x360B98⟩
def frameM1 : WireFrame :=
  ⟨0, [0x43, 0x51, 0x23, 0x48, 0x1A, 0x21, 0x43, 0x55, 0x37, 0x03, 0x10, 0x09, 0x1A, 0x2B, 0x3C, 0x4D, 0x5E, 0x6F, 0x7C,
    0x40, 0x00, 0x00, 0x00, 0x00, 0x00, 0x00, 0x0A, 0x00, 0x00, 0x00, 0x08], 0x09DD8E⟩
/-- M4: 30 payload bytes. -/
def frameM4 : WireFrame := ⟨0, [0x43, 0x50, 0, 0, 0, 0, 0, 0, 0, 1, 0, 0, 0, 0, 0, 0, 0, 0, 4] ++ List.replicate 11 0, 0x83E83D⟩
/-- M7: the time of week is out of range. -/
def frameM7 : WireFrame :=
  ⟨0, [0x43, 0x50, 0x00, 0x90, 0x32, 0x10, 0, 0, 0, 1, 0, 0, 0, 0, 0, 0, 0, 0, 4] ++ List.replicate 12 0, 0x30E475⟩
/-- A frame without payload whose checksum bytes read 1077 (row M-12). -/
def frameSpill : WireFrame := ⟨0, [], 0x435000⟩

/-- M1's fields (95_test_vectors.md, "M1 field by field"). -/
def headerM1 : Msm7Header :=
  { stationId := 291, timeOfWeekMs := 302418000, syncFlag := 1, issueOfData := 5, timeS := 42, clockSteering := 1,
    externalClock := 2, smoothingIndicator := 3, smoothingIntervalS := 4, satelliteCount := 3, signalCount := 2,
    cellMask := 0x0123456789ABCDEF, satelliteMask := 0x8800000000000001, signalMask := 0x40000001 }

/-- Each named frame's checksum is the CRC of its other bytes (table "Named frames": computed = received). -/
theorem test_named_frames_checksums :
    [frameE, frameRSV, frameL1, frameL2, frame1005, frameM1, frameM4, frameM7].all
      (fun f => crc24q (f.covered 0xD3) == f.checksum) = true := by decide +kernel

/-- The STATUS word after a command, if it completes. -/
def statusAfter (i : Instr) (s : State) : Option Word := (nextState (exec i s)).map (·.statusWord)

/-! ### Each command: at most two tests, expected values from 95_test_vectors.md -/

/-- Row P1 and P19's shape: the message number of an empty frame is made of checksum bits. -/
theorem test_frame_parse_empty_frame :
    (nextState (exec .frameParse (holding 100 (frameE.bytes 0xD3)))).map (·.groupF) =
      some ⟨0, 1150, false, .unrecognized, 103, 106, 0x47EA4B⟩ := by decide

/-- Row P13: LONGLEN. -/
theorem test_frame_parse_long_length :
    statusAfter .frameParse (holding 0 [0xD3, 0x00, 0x05, 0x00, 0x00, 0x00]) = some 0x00010022#32 := by decide

/-- Row C3. -/
theorem test_crc_check_1005 :
    (nextState (exec .crcCheck (holding 0 (frame1005.bytes 0xD3)))).map (·.groupC) = some ⟨0x360B98, true, true⟩ := by
  decide +kernel

/-- Row C9: one bit of the checksum wrong. -/
theorem test_crc_check_mismatch :
    statusAfter .crcCheck (holding 0 [0xD3, 0x00, 0x00, 0x47, 0xEA, 0x4A]) = some 0x00020102#32 := by decide +kernel

/-- Row M-1. -/
theorem test_msm7_decode_M1 :
    (nextState (exec .msm7Decode (holding 0 (frameM1.bytes 0xD3)))).map
      (fun t => ([t.statusWord, t.groupM.cellHi, t.groupM.tow.setWidth 32, t.groupM.satNact.setWidth 32],
        t.groupM.satList.toList.take 4, t.groupM.sigList.toList.take 3)) =
      some ([0x00030002#32, 0x01234567#32, 302418000#32, 3#32], [1#7, 5#7, 64#7, 0#7], [2#6, 32#6, 0#6]) := by
  decide +kernel

/-- Row M-7: one payload byte too short for the signal mask. -/
theorem test_msm7_decode_short : statusAfter .msm7Decode (holding 0 (frameM4.bytes 0xD3)) = some 0x00030022#32 := by
  decide +kernel

/-- Row D-9: a corrupted checksum beside a short header. -/
theorem test_frame_decode_crc_beside_truncated :
    statusAfter .frameDecode (holding 0 (({ frameM4 with checksum := 0x83E83C } : WireFrame).bytes 0xD3)) =
      some 0x00040122#32 := by decide +kernel

/-- Row D-14. -/
theorem test_frame_decode_tow_range :
    statusAfter .frameDecode (holding 0 (frameM7.bytes 0xD3)) = some 0x00040402#32 := by decide +kernel

/-- Row T4: UTC plus the leap seconds passes the week's end. -/
theorem test_tow_from_utc_carries :
    (nextState (exec .towFromUtc (timing 0x07EA0B0E 86390000 0 18))).map (·.groupG) = some ⟨2445, 8000⟩ := by decide +kernel

/-- Row T28: the total is negative. -/
theorem test_tow_from_utc_negative : statusAfter .towFromUtc (timing 0x07BC0106 999 0 0xFFFFFFFF) = some 0x00100062#32 := by
  decide +kernel

/-- Row T36: the last days of year 65535. -/
theorem test_utc_from_tow_last_week :
    (nextState (exec .utcFromTow (timing 3316192 0 0 0))).map (·.groupG) = some ⟨0xFFFF0C1D, 0⟩ := by decide +kernel

/-- Row T37: the year would be 65536. -/
theorem test_utc_from_tow_year_too_large :
    statusAfter .utcFromTow (timing 3316192 604799999 0 0) = some 0x00110062#32 := by decide +kernel

/-- Row K3: the difference is absolute and the boundary inclusive. -/
theorem test_tow_compare_misaligned :
    (nextState (exec .towCompare (timing 302418000 302419001 1000 0))).map (fun t => (t.statusWord, t.groupG)) =
      some (0x00120202, ⟨1001, 1⟩) := by decide +kernel

/-- Row K7: the whole range of operands. -/
theorem test_tow_compare_full_range :
    (nextState (exec .towCompare (timing 0xFFFFFFFF 0 0xFFFFFFFF 0))).map (fun t => (t.statusWord, t.groupG)) =
      some (0x00120002, ⟨0xFFFFFFFF, 0⟩) := by decide +kernel

/-- Row I6: the opcode is assigned and RSVD is not zero. -/
theorem test_illegal_word : (nextState (runCommandWord 0x00000101 State.reset)).map (·.statusWord) = some 0x00010052#32 := by
  decide

/-- Row B11: ParseFrame reads F(3). -/
theorem test_unwritten_read :
    faultOf (exec .frameParse { holding 0 [0xD3, 0x00, 0x00] with bufLen := 6 }) = some (.unwrittenRead 3) := by decide

/-- A placed command word is what the next step runs. -/
theorem test_placed_word_runs :
    (nextState (step (State.reset.withFetchWord 32 0x12))).map (fun t => (t.statusWord, t.inputs, t.pending)) =
      some (0x00120002#32, [], none) := by decide

/-! ### The bus: rows of table B -/

/-- One host access as the next step from the reset state. -/
def accessed (a : HostAccess) (s : State) : Result := step { s with inputs := [.access a] }

theorem test_bus_buf_len_clamped :
    (nextState (accessed (.write .w32 0x008 0x1FFF) State.reset)).map (·.bufLen) = some 4096 := by decide
theorem test_bus_buf_len_low_bits :
    (nextState (accessed (.write .w32 0x008 0x2006) State.reset)).map (·.bufLen) = some 6 := by decide
theorem test_bus_read_only : faultOf (accessed (.write .w32 0x004 0) State.reset) = some (.busError 0x004) := by decide
theorem test_bus_narrow : faultOf (accessed (.read .w16 0x008) State.reset) = some (.busError 0x008) := by decide
theorem test_bus_misaligned : faultOf (accessed (.read .w32 0x002) State.reset) = some (.busError 0x002) := by decide
theorem test_bus_unmapped : ∀ a ∈ [0x028, 0x10C, 0x380, 0x5000],
    faultOf (accessed (.read .w32 a) State.reset) = some (.busError a) := by decide
theorem test_bus_fbuf_unwritten :
    faultOf (accessed (.read .w32 0x1000) State.reset) = some (.unwrittenRead 0) := by decide
theorem test_bus_fbuf_low_byte :
    (nextState (accessed (.write .w32 0x1000 0x123456D3) State.reset)).map (·.fbuf) = some [(0, 0xD3)] := by decide
theorem test_bus_hazard :
    faultOf (accessed (.write .w32 0x008 6) (pendingOn 4 State.reset)) = some (.hostHazard 0x008) := by decide
theorem test_bus_status_while_pending :
    (nextState (accessed (.read .w32 0x004) (pendingOn 4 State.reset))).map (·.replies) = some [⟨4, 1⟩] := by decide

/-! ### Witnesses: the hypotheses of each statement hold together -/

theorem witness_step_executes (inputs : List Input) (h : inputs = [] ∨ inputs = [.engineTurn]) :
    let s := { pendingOn 0x12 State.reset with inputs := inputs }
    s.inReset = false ∧ (s.inputs = [] ∨ s.inputs.head? = some .engineTurn) ∧ s.pending = some 0x12 ∧
      decode 0x12 = .ok .towCompare := by
  rcases h with rfl | rfl <;> decide

theorem witness_illegal_word (w : Word) (h : w = 0x00#32 ∨ w = 0x05#32 ∨ w = 0x13#32 ∨ w = 0x101#32) :
    let s := pendingOn w State.reset
    s.inReset = false ∧ s.inputs = [] ∧ s.pending = some w ∧ ∀ i, w ≠ encode i := by
  refine ⟨rfl, rfl, rfl, fun i => ?_⟩
  rcases h with rfl | rfl | rfl | rfl <;> cases i <;> decide

theorem witness_reset_input :
    let s := { pendingOn 4 State.reset with inputs := [.resetAssert] }
    let r := { State.reset with inputs := [.resetRelease], inReset := true }
    s.inputs = .resetAssert :: [] ∧ r.inputs = .resetRelease :: [] ∧ r.inReset = true := by decide

/-- A state other than the reset state that meets the invariant, with a step. -/
theorem witness_inv :
    let s := pendingOn 0x12 { State.reset with bufLen := 1, fbuf := [(0, 0xD3)] }
    s.Inv ∧ (nextState (step s)).isSome = true := by
  refine ⟨?_, by decide +kernel⟩
  constructor
  case held => intro h; cases h
  case latched => intro w h; cases h; exact ⟨rfl, rfl, rfl, rfl⟩
  case groupF => exact .inl rfl
  case groupCIdle => exact ⟨fun _ => rfl, by intro h; cases h⟩
  case groupM => exact ⟨fun _ => rfl, by intro h; cases h⟩
  case groupMLists => constructor <;> decide +kernel
  all_goals decide

theorem witness_step_of_a_build : (nextState (step State.reset)).isSome = true := by decide

theorem witness_parsed_bytes_empty : (holding 4089 (frameE.bytes 0xD3)).HoldsParsedBytes frameE := by decide +kernel
theorem witness_parsed_bytes_1005 : (holding 0 (frame1005.bytes 0xD3)).HoldsParsedBytes frame1005 := by decide +kernel

/-- The longest frame, with only the bytes ParseFrame reads written. -/
theorem witness_parsed_bytes_longest :
    let f : WireFrame := ⟨0, List.replicate 1023 0, 0⟩
    ({ State.reset with
      bufLen := 1029
      fbuf := [(0, 0xD3), (1, 3), (2, 0xFF), (3, 0), (4, 0), (1026, 0), (1027, 0), (1028, 0)] } : State).HoldsParsedBytes
      f := by decide +kernel

theorem witness_demux :
    (holding 0 []).OnAllowlist 1077 ∧ (holding 0 []).OnAllowlist 1127 ∧ ¬ (holding 0 []).OnAllowlist 1076 := by
  unfold State.OnAllowlist; decide

theorem witness_short_buffer :
    let s := holding 100 [0xD3, 0, 0, 0x47, 0xEA]
    s.bufLen.toNat < s.frameBase.toNat + 6 := by decide

theorem witness_wrong_preamble :
    let s := { holding 0 [0xD2] with bufLen := 6 }
    s.HasRoom 6 ∧ s.fbuf.read s.frameBase.toNat = some 0xD2#8 ∧ 0xD2#8 ≠ s.config.preamble := by decide

theorem witness_past_the_buffer :
    let s := { holding 0 [0xD3, 0xFC, 1] with bufLen := 6 }
    s.HasRoom 6 ∧ s.fbuf.read s.frameBase.toNat = some s.config.preamble ∧
    s.fbuf.read (s.frameBase.toNat + 1) = some 0xFC#8 ∧ s.fbuf.read (s.frameBase.toNat + 2) = some 1#8 ∧
    s.bufLen.toNat < s.frameBase.toNat + ((0xFC#8).toNat % 4 * 256 + (1#8).toNat) + 6 := by decide

theorem witness_same_frame :
    let s := holding 0 (frameE.bytes 0xD3)
    let s' := { s with
      config := { s.config with blockBase := 0x8000, fbufSize := 1029 }, arg0 := 7,
      groupF := ⟨1, 2, true, .generic, 3, 4, 5⟩, fbuf := s.fbuf.write 9 1 }
    s'.config.preamble = s.config.preamble ∧ s'.config.allowN = s.config.allowN ∧ s'.bufLen = s.bufLen ∧ s'.frameBase = s.frameBase ∧ s'.allow = s.allow ∧
    (∀ j, j < s.bufLen.toNat → s'.fbuf.read j = s.fbuf.read j) ∧
    (nextState (exec .crcCheck s)).isSome = true := by decide +kernel

/-- The fault clause: the same frame with a byte missing. -/
theorem witness_same_frame_fault :
    let s := { holding 0 [0xD3, 0, 0] with bufLen := 6 }
    (∀ j, j < s.bufLen.toNat → ({ s with arg0 := 7 } : State).fbuf.read j = s.fbuf.read j) ∧
    faultOf (exec .frameDecode s) = some (.unwrittenRead 3) := by decide

theorem witness_two_frames :
    let s := holding 0 (frameE.bytes 0xD3 ++ frameRSV.bytes 0xD3)
    s.HoldsFrame frameE ∧ s.HoldsBytes (frameE.bytes s.config.preamble ++ frameRSV.bytes s.config.preamble) ∧
    s.frameBase.toNat + frameE.len + 6 ≤ 4095 := by decide +kernel

theorem witness_holds_frame : (holding 4089 (frameE.bytes 0xD3)).HoldsFrame frameE ∧
    (holding 0 (frame1005.bytes 0xD3)).HoldsFrame frame1005 := by decide +kernel

theorem witness_crc_linear : ([0xD3, 0x00] : List Byte).length = ([0x01, 0xFF] : List Byte).length := by decide

theorem witness_crc_flip : (2 : Nat) < ([0xD3, 0x00, 0x00] : List Byte).length := by decide

theorem witness_msm7_rejected :
    (holding 0 (frame1005.bytes 0xD3)).HoldsParsedBytes frame1005 ∧ ¬ (frame1005.msgnum = 1077#12 ∧ 2 ≤ frame1005.len) ∧
    (holding 0 (frameSpill.bytes 0xD3)).HoldsParsedBytes frameSpill ∧ frameSpill.msgnum = 1077#12 ∧
    ¬ (frameSpill.msgnum = 1077#12 ∧ 2 ≤ frameSpill.len) := by decide +kernel

theorem witness_msm7_short :
    (holding 0 (frameL2.bytes 0xD3)).HoldsFrame frameL2 ∧ frameL2.msgnum = 1077#12 ∧ frameL2.len = 2 ∧
    (holding 0 (frameM4.bytes 0xD3)).HoldsFrame frameM4 ∧ frameM4.msgnum = 1077#12 ∧ frameM4.len = 30 := by decide +kernel

theorem witness_carries_header :
    (holding 0 (frameM1.bytes 0xD3)).HoldsFrame frameM1 ∧ frameM1.CarriesHeader headerM1 := by decide +kernel

/-- The two clauses on a list entry, at the boundary of the count. -/
theorem witness_index_list :
    let m := msm7Registers headerM1
    (2 : Nat) < m.satNact.toNat ∧ m.satNact.toNat ≤ 3 ∧ (1 : Nat) < m.sigNact.toNat ∧ m.sigNact.toNat ≤ 2 := by
  decide +kernel

theorem witness_some_header : 31 ≤ frameM1.len ∧ frameM1.msgnum = 1077#12 := by decide

theorem witness_other_class :
    let s := holding 0 (frame1005.bytes 0xD3)
    s.HoldsFrame frame1005 ∧ demux s frame1005.msgnum (decide (2 ≤ frame1005.len)) ≠ .msm7 := by decide +kernel

theorem witness_msm7_class :
    let s := holding 0 (frameM1.bytes 0xD3)
    let t := holding 0 (frameM4.bytes 0xD3)
    s.HoldsFrame frameM1 ∧ demux s frameM1.msgnum (decide (2 ≤ frameM1.len)) = .msm7 ∧ frameM1.CarriesHeader headerM1 ∧
    t.HoldsFrame frameM4 ∧ demux t frameM4.msgnum (decide (2 ≤ frameM4.len)) = .msm7 ∧ frameM4.len ≤ 30 := by decide +kernel

/-- Every available byte is written, with a command pending: one that reads them and a word that selects none. -/
theorem witness_pending_available :
    let s := pendingOn 0x04 (holding 0 (frameE.bytes 0xD3))
    s.inReset = false ∧ s.inputs = [] ∧ s.pending = some 0x04 ∧ s.AvailableWritten ∧
    ({ s with pending := some 0x05 } : State).AvailableWritten := by
  dsimp only
  refine ⟨rfl, rfl, rfl, ?_, ?_⟩ <;> decide +kernel

theorem witness_quiet_runs :
    let s := pendingOn 0x04 (holding 0 (frameE.bytes 0xD3))
    s.inputs = [] ∧ s.AvailableWritten ∧
    (match step s with | .next t => t.Final | _ => False) := by
  refine ⟨by decide, by decide +kernel, ?_⟩
  exact ⟨rfl, rfl⟩

/-- Commands that complete: with each advisory, and with ERR 2 beside ADV_CRC_MISMATCH. -/
theorem witness_advisories :
    statusAfter .crcCheck (holding 0 [0xD3, 0x00, 0x00, 0x47, 0xEA, 0x4A]) = some 0x00020102#32 ∧
    statusAfter .msm7Decode (holding 0 (frameM7.bytes 0xD3)) = some 0x00030402#32 ∧
    statusAfter .towCompare (timing 6 5 0 0) = some 0x00120202#32 := by decide +kernel

/-- Every frame command completes on the empty frame, and every time command on its operands. -/
theorem witness_commands_complete :
    (∀ i ∈ frameCommands, (nextState (exec i (holding 0 (frameE.bytes 0xD3)))).isSome = true) ∧
    ∀ i ∈ timeCommands, (nextState (exec i (timing 0x07BC0106 0 0 0))).isSome = true := by decide +kernel

/-- Two states that differ where the time commands do not look. -/
theorem witness_time_operands :
    let s := timing 0x07EA0B0B 43200000 0 18
    let s' := { s with bufLen := 5, groupF := ⟨1, 2, true, .generic, 3, 4, 5⟩ }
    s'.arg0 = s.arg0 ∧ s'.arg1 = s.arg1 ∧ s'.arg2 = s.arg2 ∧ s'.leapSeconds = s.leapSeconds := by decide

/-- The last day but one of a leap February, and last days of a February, a leap February and a year. -/
theorem witness_calendar :
    (28 < daysInMonth 2024 2 ∧ 29 = daysInMonth 2024 2) ∧ 28 = daysInMonth 2100 2 ∧ 31 = daysInMonth 2024 12 ∧
    29 = daysInMonth 2000 2 := by decide

/-- The first accepted total with a negative offset, and the one before it (rows T13, T28). -/
theorem witness_tow_from_utc :
    let s := timing 0x07BC0106 1000 0 0xFFFFFFFF
    let y := s.arg0.toNat / 65536
    let m := s.arg0.toNat / 256 % 256
    let d := s.arg0.toNat % 256
    1 ≤ m ∧ m ≤ 12 ∧ 1 ≤ d ∧ d ≤ daysInMonth y m ∧ 3657 ≤ daysFromCivil y m d ∧ s.arg1.toNat < 86400000 ∧
    (daysFromCivil y m d - 3657) * 86400000 + s.arg1.toNat + s.leapSeconds.toInt * 1000 = 0 ∧
    (daysFromCivil y m d - 3657) * 86400000 + (999#32).toNat + s.leapSeconds.toInt * 1000 = -1 := by decide +kernel

/-- A success inside one week by the source's formula, and one beyond it (rows T5, T6). -/
theorem witness_source_formula :
    statusAfter .towFromUtc (timing 0x07EA0B0E 86381999 0 18) = some 0x00100002#32 ∧
    statusAfter .towFromUtc (timing 0x07EA0B0E 86382000 0 18) = some 0x00100002#32 ∧
    daysFromCivil 2026 11 14 - 3657 = 7 * 2444 + 6 := by decide +kernel

/-- The instant UTC_FROM_TOW takes from its operands. -/
def elapsed (s : State) : Int := (s.arg0.toNat : Int) * 604800000 + s.arg1.toNat - s.leapSeconds.toInt * 1000

/-- The clauses of UTC_FROM_TOW at their boundaries (rows T33, T32, T31, T36, T38). -/
theorem witness_utc_from_tow :
    604800000 ≤ (timing 0 604800000 0 0).arg1.toNat ∧
    ((timing 0 17999 0 18).arg1.toNat < 604800000 ∧ elapsed (timing 0 17999 0 18) = -1) ∧
    elapsed (timing 0 18000 0 18) = 0 ∧
    (daysFromCivil 65535 12 29 = elapsed (timing 3316192 0 0 0) / 86400000 + 3657 ∧ 29 ≤ daysInMonth 65535 12) ∧
    (daysFromCivil 65536 1 5 = elapsed (timing 3316193 0 0 0) / 86400000 + 3657 ∧ 5 ≤ daysInMonth 65536 1) := by
  decide +kernel

/-- A TOW_FROM_UTC that succeeds, and the operands it leaves for UTC_FROM_TOW (row T4). -/
theorem witness_round_trip :
    (nextState (exec .towFromUtc (timing 0x07EA0B0E 86390000 0 18))).map (fun t => (t.status.err, t.groupG)) =
      some (.noError, ⟨2445, 8000⟩) ∧
    (timing 2445 8000 0 18).leapSeconds = (timing 0x07EA0B0E 86390000 0 18).leapSeconds := by decide +kernel

/-- The reset state with one access to come. -/
def accessing (a : HostAccess) (s : State) : State := { s with inputs := [.access a] }

theorem witness_refused_access :
    State.reset.config.wellFormed = true ∧
    ((accessing (.read .w16 0x008) State.reset).AccessNext (.read .w16 0x008) 0x008 [] ∧
      (HostAccess.read .w16 0x008).width ≠ .w32) ∧
    ((accessing (.read .w32 0x5000) State.reset).AccessNext (.read .w32 0x5000) 0x5000 [] ∧
      ¬ MappedOffset Config.standard 0x5000 ∧ MappedOffset Config.standard 0x4FFC) ∧
    ((accessing (.write .w32 0x004 0) State.reset).AccessNext (.write .w32 0x004 0) 0x004 [] ∧
      ¬ WritableOffset Config.standard 0x004 ∧ WritableOffset Config.standard 0x008) := by decide

theorem witness_write_while_pending :
    let s := accessing (.write .w32 0x05C 0) (pendingOn 4 State.reset)
    s.AccessNext (.write .w32 0x05C 0) 0x05C [] ∧ WritableOffset s.config 0x05C ∧ s.pending.isSome = true := by decide

/-- STATUS, CMD, a result register and an FBUF word that is not written. -/
theorem witness_reads_while_pending :
    ∀ p ∈ [(0x004, Reg.status), (0x000, Reg.cmd), (0x37C, Reg.sigList 31), (0x4FFC, Reg.fbuf 4095)],
    let s := accessing (.read .w32 p.1) (pendingOn 4 State.reset)
    s.AccessNext (.read .w32 p.1) p.1 [] ∧ regAt s.config p.1 = some p.2 ∧ s.pending.isSome = true ∧
    s.fbuf.read 4095 = none := by decide

theorem witness_idle_read :
    let s := accessing (.read .w32 0x008) { State.reset with bufLen := 6 }
    s.AccessNext (.read .w32 0x008) 0x008 [] ∧ regAt s.config 0x008 = some .bufLen ∧ s.pending = none ∧
    readReg s .bufLen = some 6#32 := by decide

/-- The last byte of the buffer. -/
theorem witness_fbuf_access :
    let w := accessing (.write .w32 0x4FFC 0x1AB) State.reset
    let r := accessing (.read .w32 0x4FFC) { State.reset with fbuf := [(4095, 0xAB)] }
    let u := accessing (.read .w32 0x4FFC) State.reset
    w.AccessNext (.write .w32 0x4FFC 0x1AB) (0x1000 + 4 * 4095) [] ∧ 4095 < w.config.fbufSize ∧ w.pending = none ∧
    r.AccessNext (.read .w32 0x4FFC) (0x1000 + 4 * 4095) [] ∧ r.fbuf.read 4095 = some 0xAB#8 ∧
    u.AccessNext (.read .w32 0x4FFC) (0x1000 + 4 * 4095) [] ∧ u.fbuf.read 4095 = none := by decide

theorem witness_configuration_writes : ∀ off ∈ [0x008, 0x00C, 0x010, 0x014, 0x018, 0x01C, 0x05C],
    let s := accessing (.write .w32 off 0xFFFFFFFF) State.reset
    s.config.wellFormed = true ∧ s.AccessNext (.write .w32 off 0xFFFFFFFF) off [] ∧ s.pending = none ∧
    7 < s.config.allowN := by decide

theorem witness_cmd_write :
    let s := accessing (.write .w32 0x000 0x101) State.reset
    s.AccessNext (.write .w32 0x000 0x101) 0x000 [] ∧ s.pending = none := by decide

theorem witness_register_value : readReg State.reset .status = some 0#32 := by decide

/-- An offset of each row of the address map, at the rows' ends. -/
theorem witness_register_words :
    ∀ off ∈ [0x000, 0x004, 0x024, 0x040, 0x05C, 0x080, 0x088, 0x09C, 0x0C0, 0x108, 0x200, 0x2FC, 0x300, 0x37C],
    let s := accessing (.read .w32 off) State.reset
    s.AccessNext (.read .w32 off) off [] ∧ s.pending = none ∧ 7 < s.config.allowN := by decide

/-- Words after decoding M1: FRM_MSGNUM, FRM_CLASS, CRC_STAT, the cell mask's halves, ALLOW0 and SAT_LIST[2] (rows P7, D-1, M1). -/
theorem test_register_words :
    (nextState (exec .frameDecode (holding 0 (frameM1.bytes 0xD3)))).map (fun t =>
      [0x040, 0x084, 0x088, 0x09C, 0x0EC, 0x0F0, 0x208].map fun off => (regAt t.config off).bind (readReg t)) =
    some [some 0x800003ED#32, some 0x00010435#32, some 1#32, some 3#32, some 0x01234567#32, some 0x89ABCDEF#32,
      some 64#32] := by decide +kernel

theorem witness_decoded_word : decode 0x00000012 = .ok .towCompare ∧ Instr.towCompare.wellFormed = true := by decide

/-- A build with five allowlist entries: entry 5 is the first it lacks. -/
theorem witness_missing_entry :
    let s := { State.reset with config := { Config.standard with allowN := 5 } }
    s.config.wellFormed = true ∧ s.config.allowN ≤ (5 : Fin 8).val := by decide

end Sys2Proof.Tests
end

section
/-! PROOF. What the registers and FBUF read right after reset (10_state.md R53). -/

namespace Sys2Proof.Machine

/-! ### The indexed state: the allowlist, group M's lists, FBUF -/

@[simp] theorem Msm7Regs.zero_satList_get (k : Fin 64) : Msm7Regs.zero.satList.get k = 0 := by
  simp [Msm7Regs.zero, Vector.get_eq_getElem]

@[simp] theorem Msm7Regs.zero_sigList_get (k : Fin 32) : Msm7Regs.zero.sigList.get k = 0 := by
  simp [Msm7Regs.zero, Vector.get_eq_getElem]

@[simp] theorem reset_groupM : State.reset.groupM = .zero := rfl

/-- 10_state.md R33, R53. -/
@[simp] theorem reset_allow_get (n : Fin 8) : State.reset.allow.get n = ⟨false, 0⟩ := by
  simp [State.reset, Vector.get_eq_getElem]

/-- 70_reset_and_hazards.md R202. -/
@[simp] theorem reset_fbuf_read (i : Nat) : State.reset.fbuf.read i = none := rfl

/-! ### The registers -/

/-- An indexed register reads 0 because each entry is at its reset value; a single register's word computes. -/
theorem readReg_reset {r : Reg} (hr : ∀ i, r ≠ .fbuf i) : readReg State.reset r = some 0#32 := by
  cases r with
  | allow n => simp [readReg]
  | satList k => simp [readReg]
  | sigList k => simp [readReg]
  | fbuf i => exact absurd rfl (hr i)
  | _ => rfl

/-- Settles O5: PENDING by definition, the registers by `readReg_reset`, FBUF by `reset_fbuf_read`. -/
theorem resetStateReadsAsTheTable : Obligations.ResetStateReadsAsTheTable :=
  ⟨rfl, fun _ hr => readReg_reset hr, reset_fbuf_read⟩

end Sys2Proof.Machine
end

section
/-! PROOF. What a host access to an FBUF word stores, answers and faults on (20_memory.md R65, R66). -/

namespace Sys2Proof.Machine

/-- 20_memory.md R65, as one step: FBUF takes the low byte at the word's index. -/
theorem step_fbuf_write {s : State} {addr i : Nat} {v : Word} {rest : List Input}
    (h : s.AccessNext (.write .w32 addr v) (0x1000 + 4 * i) rest) (hi : i < s.config.fbufSize)
    (hp : s.pending = none) :
    step s = .next { s with inputs := rest, fbuf := s.fbuf.write i (v.setWidth 8) } := by
  rw [step_write h (regAt_fbuf hi), BitVec.setWidth_eq_extractLsb' (by decide)]
  exact hostWrite_idle rfl hp

/-- Settles O47: the step by `step_fbuf_write`, the bytes by the two laws of `Memory.write`. -/
theorem fbufWriteStoresOneByte : Obligations.FbufWriteStoresOneByte := by
  intro s addr i v rest h hi hp
  exact ⟨_, step_fbuf_write h hi hp, rfl, Memory.read_write_same .., fun _ hj => Memory.read_write_other _ _ hj⟩

/-- 20_memory.md R66: a written FBUF byte's word is the byte zero-extended. -/
theorem readReg_fbuf_written {s : State} {i : Nat} {b : Byte} (h : s.fbuf.read i = some b) :
    readReg s (.fbuf i) = some (b.setWidth 32) := by
  simp [readReg, h]

/-- Settles O48: an idle read of a written word replies with its value, one of an unwritten word faults. -/
theorem fbufReadNeedsAWrittenByte : Obligations.FbufReadNeedsAWrittenByte := by
  intro s addr i rest h hi hp
  rw [step_read h (regAt_fbuf hi)]
  constructor
  · intro b hb
    exact hostRead_idle hp (readReg_fbuf_written hb)
  · intro hu
    exact hostRead_unwritten hp hu

end Sys2Proof.Machine
end

section
/-! PROOF. Which words the decoder takes for a command (30_encoding.md R82). -/

namespace Sys2Proof

/-- Each command's word decodes to the command. -/
@[simp] theorem decode_encode (i : Instr) : decode (encode i) = .ok i := by
  cases i <;> rfl

/-- A decoded word is the word of the command it selects: of the comparisons of `decode_eq`, one with a match value
selects its command, and the last answers an error. -/
theorem encode_of_decode {w : Word} {i : Instr} (h : decode w = .ok i) : w = encode i := by
  rw [decode_eq] at h
  split_ifs at h <;> cases h <;> assumption

theorem decode_eq_ok_iff {w : Word} {i : Instr} : decode w = .ok i ↔ w = encode i :=
  ⟨encode_of_decode, fun h => h ▸ decode_encode i⟩

/-- Settles O1: by `decode_eq_ok_iff` it is enough that each command has one row and the row has its word. -/
theorem commandWordsDecodeExactly : Obligations.CommandWordsDecodeExactly := by
  intro w i
  rw [decode_eq_ok_iff]
  cases i <;> simp [encode]

end Sys2Proof
end

section
/-! PROOF. What MSM7_DECODE delivers of a header, and what group M shows of it (30_encoding.md R85, R86;
42_msm7_reader.md R134 to R136). -/

namespace Sys2Proof.Machine

/-! ### The command -/

/-- FRM_LEN is wide enough for the length of every frame. -/
theorem parsedRegs_frmLen_toNat (s : State) {f : WireFrame} (h : f.len ≤ 1023) :
    (s.parsedRegs f).frmLen.toNat = f.len := by
  rw [State.parsedRegs, BitVec.toNat_ofNat, Nat.mod_eq_of_lt (by omega)]

/-- A frame that carries a header passes the gate of MSM7_DECODE (42_msm7_reader.md R132). -/
theorem parsedRegs_pass_gate (s : State) {f : WireFrame} {v : Msm7Header} (hv : f.CarriesHeader v) :
    (s.parsedRegs f).msgnum = msm7Msgnum ∧ (s.parsedRegs f).mnInPayload = true :=
  have hl := hv.long
  ⟨hv.msgnum_eq, decide_eq_true (by omega)⟩

/-- Settles O24: the frame is parsed (`parseFrame_of_held`), passes the gate, and its header is read
(`readMsm7_of_header`), so the command completes with the `header` result of `FrameResult`. -/
theorem msm7DecodeDeliversTheHeader : Obligations.Msm7DecodeDeliversTheHeader := by
  intro s f v hf hv
  have hread : readMsm7 s (s.parsedRegs f).frmLen.toNat = .ok v := by
    rw [parsedRegs_frmLen_toNat s hf.1]
    exact readMsm7_of_header hf hv
  exact exec_of_frameResult (parseFrame_of_held hf.parsedBytes) (.header (parsedRegs_pass_gate s hv) v hread)

/-! ### The index lists -/

theorem indexRegisters_get (w n : Nat) (l : List Nat) (k : Fin n) :
    (indexRegisters w n l).get k = BitVec.ofNat w (l.getD k 0) := by
  simp [indexRegisters, Vector.get_eq_getElem]

/-- A count register wide enough for the mask's width holds the number of mask bits that are 1. -/
theorem activeCount_toNat {n w : Nat} (mask : BitVec n) (hw : n < 2 ^ w) :
    (BitVec.ofNat w (activeIndices mask).length).toNat = (List.range n).countP (fun b => mask.getLsbD b) := by
  rw [BitVec.toNat_ofNat, Nat.mod_eq_of_lt ((activeIndices_length_le mask).trans_lt hw), activeIndices_length]

/-- An entry below the count holds the active index with exactly as many active indices below it. -/
theorem activeRegisters_below {n w : Nat} (mask : BitVec n) (hw : n < 2 ^ w) {k : Fin n}
    (hk : k.val < (BitVec.ofNat w (activeIndices mask).length).toNat) :
    ∃ x, ((indexRegisters w n (activeIndices mask)).get k).toNat = x ∧ 1 ≤ x ∧ x ≤ n ∧
      mask.getLsbD (n - x) = true ∧
      (List.range x).countP (fun j => decide (1 ≤ j) && mask.getLsbD (n - j)) = k.val := by
  rw [activeCount_toNat mask hw, ← activeIndices_length] at hk
  obtain ⟨hpos, hle, hactive, hbelow⟩ := activeIndices_getElem mask k hk
  refine ⟨(activeIndices mask)[k.val], ?_, hpos, hle, hactive, hbelow⟩
  rw [indexRegisters_get, List.getD_eq_getElem _ _ hk, BitVec.toNat_ofNat, Nat.mod_eq_of_lt (hle.trans_lt hw)]

/-- An entry from the count on is 0. -/
theorem activeRegisters_above {n w : Nat} (mask : BitVec n) (hw : n < 2 ^ w) {k : Fin n}
    (hk : (BitVec.ofNat w (activeIndices mask).length).toNat ≤ k.val) :
    (indexRegisters w n (activeIndices mask)).get k = 0#w := by
  rw [activeCount_toNat mask hw, ← activeIndices_length] at hk
  rw [indexRegisters_get, List.getD_eq_default _ _ hk]

/-- Settles O25: the fields by definition, a split mask by `mask_of_halves`, and the counts and lists of both masks by
the lemmas about a mask of any width. -/
theorem msm7RegistersShowFieldsAndIndexLists : Obligations.Msm7RegistersShowFieldsAndIndexLists := by
  intro v
  have hsat : 64 < 2 ^ 7 := by decide
  have hsig : 32 < 2 ^ 6 := by decide
  refine ⟨⟨rfl, rfl, rfl, rfl, rfl, rfl, rfl, rfl, rfl, rfl, rfl, mask_of_halves v.cellMask,
    mask_of_halves v.satelliteMask, rfl, rfl⟩, activeCount_toNat _ hsat, activeCount_toNat _ hsig, fun k => ?_,
    fun k => ?_⟩
  · exact ⟨activeRegisters_below v.satelliteMask hsat, activeRegisters_above v.satelliteMask hsat⟩
  · exact ⟨activeRegisters_below v.signalMask hsig, activeRegisters_above v.signalMask hsig⟩

end Sys2Proof.Machine
end

section
/-! PROOF. What FRAME_PARSE delivers of a frame, the demux classes, and the two checks ParseFrame makes before it reads
the length (40_frame_parser.md R100 to R108). -/

namespace Sys2Proof.Machine

/-! ### The demux -/

/-- The allowlist search finds exactly the numbers an enabled entry of the build names (10_state.md R33). -/
theorem allowed_iff (s : State) (mn : BitVec 12) : allowed s mn = true ↔ s.OnAllowlist mn := by
  simp only [allowed, State.OnAllowlist, List.any_eq_true, Bool.and_eq_true, beq_iff_eq]
  constructor
  · rintro ⟨e, he, hen, hnum⟩
    obtain ⟨n, hn, rfl⟩ := List.mem_take_iff_getElem.mp he
    obtain ⟨hbuild, hstate⟩ := lt_min_iff.mp hn
    exact ⟨⟨n, by simpa using hstate⟩, hbuild, hen, hnum⟩
  · rintro ⟨n, hn, hen, hnum⟩
    exact ⟨s.allow.get n, List.mem_take_iff_getElem.mpr ⟨n, lt_min hn (by simp), rfl⟩, hen, hnum⟩

/-- A number in the payload and on the allowlist is MSM7 or GENERIC. -/
theorem demux_of_onAllowlist {s : State} {mn : BitVec 12} (h : s.OnAllowlist mn) :
    demux s mn true = if mn = msm7Msgnum then .msm7 else .generic := by
  simp [demux, (allowed_iff s mn).mpr h]

/-- Any other number is UNRECOGNIZED. -/
theorem demux_unrecognized {s : State} {mn : BitVec 12} {inpay : Bool} (h : inpay = false ∨ ¬ s.OnAllowlist mn) :
    demux s mn inpay = .unrecognized := by
  rw [← allowed_iff] at h
  rcases h with rfl | h <;> simp [demux, *]

/-- Settles O11: a listed number by `demux_of_onAllowlist`, any other by `demux_unrecognized`. -/
theorem demuxFollowsTheAllowlist : Obligations.DemuxFollowsTheAllowlist := by
  intro s mn inpay
  refine ⟨?_, ?_, demux_unrecognized⟩
  · rintro ⟨rfl, hl, hmn⟩
    exact (demux_of_onAllowlist hl).trans (if_pos hmn)
  · rintro ⟨rfl, hl, hmn⟩
    exact (demux_of_onAllowlist hl).trans (if_neg hmn)

/-! ### FRAME_PARSE of a frame -/

/-- Settles O10: the frame is parsed (`parseFrame_of_held`), and FRAME_PARSE completes with what was parsed. -/
theorem frameParseRecoversTheFrame : Obligations.FrameParseRecoversTheFrame := fun _ _ hf =>
  exec_of_frameResult (parseFrame_of_held hf) .parsed

/-! ### The checks before the length is read -/

/-- 40_frame_parser.md R102: the first check reads no byte. -/
theorem parseFrame_short {s : State} (h : availableBytes s < 6) : parseFrame s = .error (.raised .truncatedFrame) :=
  if_pos h

/-- 40_frame_parser.md R103: the second check reads the first byte alone. -/
theorem parseFrame_wrong_preamble {s : State} {b : Byte} (h : s.HasRoom 6)
    (hb : s.fbuf.read s.frameBase.toNat = some b) (hne : b ≠ s.config.preamble) :
    parseFrame s = .error (.raised .invalidPreamble) := by
  have h6 : ¬ availableBytes s < 6 := by simp only [availableBytes]; omega
  have h0 : frameByte s 0 = .ok b := frameByte_of_read hb
  rw [parseFrame, if_neg h6, h0, engine_ok_bind, if_pos hne, raise]

/-- An error of ParseFrame ends every frame command alike (60_exceptions.md R181). -/
theorem exec_frame_raised {i : Instr} (hi : i ∈ frameCommands) {s : State} {e : ErrKind}
    (h : parseFrame s = .error (.raised e)) :
    exec i s = .next (s.afterFrameCommand (opcodeOf i) e .clear .zero .zero .zero) := by
  obtain ⟨rest, hrest⟩ := exec_frame_eq hi s
  rw [hrest, withParsedFrame_raised h]

/-- Settles O12: ParseFrame raises the error (`parseFrame_short`), and every frame command completes with it. -/
theorem shortBufferIsTruncatedFrame : Obligations.ShortBufferIsTruncatedFrame := by
  intro i hi s h
  have havail : availableBytes s < 6 := by simp only [availableBytes]; omega
  exact exec_frame_raised hi (parseFrame_short havail)

/-- Settles O13: ParseFrame raises the error (`parseFrame_wrong_preamble`), and every frame command completes with it. -/
theorem wrongPreambleIsInvalidPreamble : Obligations.WrongPreambleIsInvalidPreamble :=
  ⟨rfl, fun _ hi _ _ hroom hb hne => exec_frame_raised hi (parseFrame_wrong_preamble hroom hb hne)⟩

end Sys2Proof.Machine
end

section
/-! PROOF. What CRC_CHECK delivers of a frame: the CRC over the covered bytes and its comparison with the checksum
(41_crc24q.md R121, R122). -/

namespace Sys2Proof.Machine

/-! ### The comparison -/

/-- Group C after the comparison (41_crc24q.md R122), with MATCH as the equality. -/
theorem compareCrc_eq (computed recv : BitVec 24) :
    compareCrc computed recv = ⟨computed, true, decide (computed = recv)⟩ := rfl

/-- The advisory says exactly that the two values differ (41_crc24q.md R122). -/
theorem crcAdvisory_eq (computed recv : BitVec 24) :
    crcAdvisory computed recv = ⟨decide (computed ≠ recv), false, false⟩ :=
  congrArg (Advisories.mk · false false) (decide_not (p := computed = recv)).symm

/-! ### The command -/

/-- The CRC stage takes its extent from FRM_LEN (41_crc24q.md R121), so it covers a held frame whole up to the checksum. -/
theorem frameCrc_of_parsedRegs {s : State} {f : WireFrame} (h : s.HoldsFrame f) :
    frameCrc s ((s.parsedRegs f).frmLen.toNat + 3) = .ok (crc24q (f.covered s.config.preamble)) := by
  rw [parsedRegs_frmLen_toNat s h.1]
  exact frameCrc_of_held h

/-- Settles O17: the frame is parsed (`parseFrame_of_held`), its CRC is that of the covered bytes
(`frameCrc_of_parsedRegs`), and CRC_CHECK completes with the comparison of the two. -/
theorem crcCheckComparesTheChecksum : Obligations.CrcCheckComparesTheChecksum := by
  intro s f hf
  rw [← compareCrc_eq, ← crcAdvisory_eq]
  exact exec_of_frameResult (parseFrame_of_held hf.parsedBytes) (.checked _ (frameCrc_of_parsedRegs hf))

end Sys2Proof.Machine
end

section
/-! PROOF. What MSM7_DECODE answers for a frame it reads no MSM7 bit of (42_msm7_reader.md R132). -/

namespace Sys2Proof.Machine

/-- The gate of a parsed frame, as a property of the frame: its number is 1077 and lies in the payload. -/
theorem parsedRegs_gate_iff (s : State) (f : WireFrame) :
    (s.parsedRegs f).msgnum = msm7Msgnum ∧ (s.parsedRegs f).mnInPayload = true ↔ f.msgnum = 1077#12 ∧ 2 ≤ f.len :=
  and_congr_right' decide_eq_true_iff

/-- Settles O22: the frame is parsed (`parseFrame_of_held`) and fails the gate (`parsedRegs_gate_iff`), so the command
completes with the `gated` result of `FrameResult`. -/
theorem msm7DecodeRejectsOtherMessages : Obligations.Msm7DecodeRejectsOtherMessages := by
  intro s f hf hother
  have hgate := mt (parsedRegs_gate_iff s f).mp hother
  exact exec_of_frameResult (parseFrame_of_held hf) (.gated hgate)

end Sys2Proof.Machine
end

section
/-! PROOF. What FRAME_DECODE answers for a frame of class MSM7: the header read runs whatever the CRC comparison gave,
and keeps what the comparison wrote (43_frame_decode.md R152). -/

namespace Sys2Proof.Machine

/-! ### The header read of a payload too short for a header -/

/-- No byte of a held frame is unwritten, so no read inside the frame stops at one. -/
theorem StopsWithin.not_unwritten_of_held {α : Type} {s : State} {f : WireFrame} {hi : Nat} {m : Engine α}
    (hm : StopsWithin s 0 hi m) (hf : s.HoldsFrame f) (hhi : hi ≤ f.len + 6) (i : Nat) :
    m ≠ .error (.unwritten i) := by
  intro hstop
  obtain ⟨hlo, hlt, hnone⟩ := hm i hstop
  obtain ⟨k, rfl⟩ := Nat.exists_eq_add_of_le hlo
  have hk : k < (f.bytes s.config.preamble).length := by
    rw [f.length_bytes]; omega
  have hread : s.fbuf.read (s.frameBase.toNat + k) = some _ := hf.2.2 k hk
  exact Option.some_ne_none _ (hread.symm.trans hnone)

/-- 42_msm7_reader.md R131: of at most 30 payload bytes the reader answers no header, and TruncatedFrame is the only
error it raises. -/
theorem readMsm7_of_short {s : State} {f : WireFrame} (hf : s.HoldsFrame f) (hshort : f.len ≤ 30) :
    readMsm7 s f.len = .error (.raised .truncatedFrame) := by
  cases hr : readMsm7 s f.len with
  | ok v =>
    have hlong := readMsm7_ok_long hr
    omega
  | error stop =>
    cases stop with
    | raised e => rw [readMsm7_raised hr]
    | unwritten i => exact absurd hr ((readMsm7_stopsWithin s f.len).not_unwritten_of_held hf (by omega) i)

/-! ### The command -/

/-- Settles O28: the frame is parsed (`parseFrame_of_held`) and its CRC computed (`frameCrc_of_parsedRegs`); then the
header read gives the carried header (`readMsm7_of_header`) or, of a short payload, TruncatedFrame
(`readMsm7_of_short`), which is the `decoded` or the `decodedShort` result of `FrameResult`. -/
theorem frameDecodeReadsTheHeaderWhateverTheCrc : Obligations.FrameDecodeReadsTheHeaderWhateverTheCrc := by
  intro s f hf hclass bad c
  have hparse := parseFrame_of_held hf.parsedBytes
  have hcrc := frameCrc_of_parsedRegs hf
  have hlen := parsedRegs_frmLen_toNat s hf.1
  have hbad : bad = (crcAdvisory (crc24q (f.covered s.config.preamble)) f.checksum).crcMismatch := by
    rw [crcAdvisory_eq]
  rw [hbad]
  constructor
  · intro v hv
    have hread : readMsm7 s (s.parsedRegs f).frmLen.toNat = .ok v := hlen ▸ readMsm7_of_header hf hv
    exact exec_of_frameResult hparse (.decoded hclass _ hcrc v hread)
  · intro hshort
    have hread : readMsm7 s (s.parsedRegs f).frmLen.toNat = .error (.raised .truncatedFrame) :=
      hlen ▸ readMsm7_of_short hf hshort
    exact exec_of_frameResult hparse (.decodedShort hclass _ hcrc _ hread)

end Sys2Proof.Machine
end

section
/-! PROOF. What a time command reads and writes (44_gps_time.md R168), and TOW_COMPARE (R167). -/

namespace Sys2Proof.Machine

/-- Settles O35: a time command completes with its result (`exec_time_eq`), which is the same from both states
(`timeResult_congr`). -/
theorem timeCommandsTouchOnlyGroupG : Obligations.TimeCommandsTouchOnlyGroupG := by
  intro i hi s s' h0 h1 h2 hl
  refine ⟨_, _, _, exec_time_eq hi s, ?_⟩
  rw [← timeResult_congr h0 h1 h2 hl]
  exact exec_time_eq hi s'

/-- The absolute difference as the larger operand less the smaller. -/
theorem absDifference_eq (a b : Word) : absDifference a b = max a.toNat b.toNat - min a.toNat b.toNat := by
  rw [absDifference]
  omega

/-- Settles O42: TOW_COMPARE completes with its result, whose difference is `absDifference_eq`. -/
theorem towCompareReportsTheDifference : Obligations.TowCompareReportsTheDifference := by
  intro s delta late
  simp only [late, delta, ← absDifference_eq]
  exact exec_time_eq (i := .towCompare) (by decide) s

end Sys2Proof.Machine
end

section
/-! PROOF. TOW_FROM_UTC: which operands it accepts, and that week and time of week denote the exact instant
(44_gps_time.md R163). -/

namespace Sys2Proof.Machine

/-- 44_gps_time.md R160. -/
theorem epochDays_eq : epochDays = 3657 := by decide

/-- A register takes an exact number of its range unchanged. -/
theorem ofInt32_toNat {x : Int} (h0 : 0 ≤ x) (h : x < 4294967296) : ((BitVec.ofInt 32 x).toNat : Int) = x := by
  rw [BitVec.toNat_ofInt]
  omega

/-- A coarse bound on the day count of a date, enough for the week of a 16-bit year to fit its register. -/
theorem daysFromCivil_le {y m d : Int} (hy : 0 ≤ y) (hd : d ≤ 31) : daysFromCivil y m d ≤ 366 * y := by
  simp only [daysFromCivil]
  split <;> omega

/-- 44_gps_time.md R163: the week fits RES0. -/
theorem gpsTotalMs_week_lt {s : State} (ht : s.arg1.toNat < dayMs) (hd : dateDay s.arg0 ≤ 31) :
    gpsTotalMs s / weekMs < 4294967296 := by
  have hy : dateYear s.arg0 < 2 ^ 16 := BitVec.isLt _
  have hdays := daysFromCivil_le (y := dateYear s.arg0) (m := dateMonth s.arg0) (d := dateDay s.arg0)
    (by omega) (by omega)
  have hleap := BitVec.toInt_lt (x := s.leapSeconds)
  simp only [gpsTotalMs, leapOffset, epochDays_eq, dayMs, weekMs] at ht ⊢
  omega

/-- 44_gps_time.md R163: week and time of week recompose the total when the week fits RES0. -/
theorem weekAndTow_recompose {total : Int} (h0 : 0 ≤ total) (hweek : total / weekMs < 4294967296) :
    let g : TimeRegs := ⟨BitVec.ofInt 32 (total / weekMs), BitVec.ofInt 32 (total % weekMs)⟩
    (g.res0.toNat : Int) * 604800000 + g.res1.toNat = total ∧ g.res1.toNat < 604800000 := by
  rw [show (weekMs : Int) = 604800000 from rfl] at hweek ⊢
  have hres0 := ofInt32_toNat (x := total / 604800000) (by omega) hweek
  have hres1 := ofInt32_toNat (x := total % 604800000) (by omega) (by omega)
  dsimp only
  omega

/-- What TOW_FROM_UTC accepts. -/
theorem timeResult_towFromUtc_accepted {s : State}
    (hdate : validDate (dateYear s.arg0) (dateMonth s.arg0) (dateDay s.arg0) = true) (ht : s.arg1.toNat < dayMs)
    (h0 : 0 ≤ gpsTotalMs s) :
    timeResult .towFromUtc s =
      (.noError, .clear, ⟨BitVec.ofInt 32 (gpsTotalMs s / weekMs), BitVec.ofInt 32 (gpsTotalMs s % weekMs)⟩) := by
  have hok : (!validDate (dateYear s.arg0) (dateMonth s.arg0) (dateDay s.arg0) || decide (dayMs ≤ s.arg1.toNat)) =
      false := by simp [hdate, ht]
  rw [timeResult, hok, if_neg Bool.false_ne_true, if_neg (Int.not_lt.mpr h0)]

/-- What TOW_FROM_UTC refuses. -/
theorem timeResult_towFromUtc_refused {s : State}
    (h : ¬ (validDate (dateYear s.arg0) (dateMonth s.arg0) (dateDay s.arg0) = true ∧ s.arg1.toNat < dayMs ∧
      0 ≤ gpsTotalMs s)) :
    timeResult .towFromUtc s = (.domainError, .clear, .zero) := by
  simp only [timeResult]
  split
  · rfl
  next hok =>
    simp only [Bool.or_eq_true, Bool.not_eq_true', decide_eq_true_eq, not_or, Bool.not_eq_false, Nat.not_le] at hok
    exact if_pos (Int.not_le.mp fun h0 => h ⟨hok.1, hok.2, h0⟩)

/-- Settles O38: the statement's conditions are those of `timeResult_towFromUtc_accepted`; week and time of
week recompose the total (`weekAndTow_recompose`), since the week fits (`gpsTotalMs_week_lt`). -/
theorem towFromUtcConvertsExactly : Obligations.TowFromUtcConvertsExactly := by
  intro s y m d wellFormed total
  obtain ⟨hy, hm, hd⟩ := date_fields s.arg0
  have htotal : gpsTotalMs s = total := by
    simp only [gpsTotalMs, hy, hm, hd, epochDays_eq]
    rfl
  have hiff : wellFormed ∧ 0 ≤ total ↔
      validDate (dateYear s.arg0) (dateMonth s.arg0) (dateDay s.arg0) = true ∧ s.arg1.toNat < dayMs ∧
        0 ≤ gpsTotalMs s := by
    rw [htotal, validDate_iff, epochDays_eq, hy, hm, hd]
    simp only [wellFormed, and_assoc]
    rfl
  have hexec := exec_time_eq (i := .towFromUtc) (by decide) s
  constructor
  · intro h
    obtain ⟨hdate, ht, h0⟩ := hiff.mp h
    obtain ⟨-, -, -, hday, -⟩ := (validDate_iff _ _ _).mp hdate
    have hweek := gpsTotalMs_week_lt ht (daysInMonth_facts _ _ _ hday).1
    rw [timeResult_towFromUtc_accepted hdate ht h0] at hexec
    exact ⟨_, hexec, htotal ▸ weekAndTow_recompose h0 hweek⟩
  · intro h
    rw [timeResult_towFromUtc_refused (mt hiff.mpr h)] at hexec
    exact hexec

end Sys2Proof.Machine
end

section
/-! PROOF. UTC_FROM_TOW: the date it answers is the one whose day count is that of the instant (44_gps_time.md R165),
because CivilFromDays inverts DaysFromCivil on every date (R161). -/

namespace Sys2Proof.Machine

/-! ### CivilFromDays inverts DaysFromCivil -/

/-- The year of an era comes back from the day of the era; only a leap year has a day 365. -/
theorem yearOfEra_of_dayOfEra {yoe doy : Int} (h0 : 0 ≤ yoe) (h399 : yoe ≤ 399) (hdoy0 : 0 ≤ doy) (hdoy : doy ≤ 365)
    (hleap : doy = 365 → yoe % 4 = 3 ∧ (yoe % 100 ≠ 99 ∨ yoe = 399)) :
    let doe := 365 * yoe + yoe / 4 - yoe / 100 + doy
    0 ≤ doe ∧ doe ≤ 146096 ∧ (doe - doe / 1460 + doe / 36524 - doe / 146096) / 365 = yoe := by
  obtain ⟨c, q, t, rfl, hc0, hc, hq0, hq, ht0, ht⟩ := yearOfEra_split yoe h0 h399
  have hyear := yearOfEra_eq c q t doy hc0 hc hq0 hq ht0 ht hdoy0 hdoy (by omega)
  rw [dayOfEra_eq c q t doy hq0 hq ht0 ht]
  exact ⟨by omega, by omega, hyear⟩

/-- CivilFromDays cuts a day number into the parts it was made of: year `yoe` of an era, day `doy` of the year, and of
that day the month `mp` and day `d`; years and months begin in March. -/
theorem civilFromDays_of_parts {era yoe doy mp d : Int}
    (hyear : let doe := 365 * yoe + yoe / 4 - yoe / 100 + doy
      0 ≤ doe ∧ doe ≤ 146096 ∧ (doe - doe / 1460 + doe / 36524 - doe / 146096) / 365 = yoe)
    (hmonth : (5 * doy + 2) / 153 = mp) (hday : doy - (153 * mp + 2) / 5 + 1 = d) :
    let m := if mp < 10 then mp + 3 else mp - 9
    civilFromDays (146097 * era + (365 * yoe + yoe / 4 - yoe / 100 + doy) - 719468) =
      (yoe + 400 * era + (if m ≤ 2 then 1 else 0), m, d) := by
  obtain ⟨hdoe0, hdoe, hyoe⟩ := hyear
  generalize hdoeEq : 365 * yoe + yoe / 4 - yoe / 100 + doy = doe at *
  have hz : 146097 * era + doe - 719468 + 719468 = 146097 * era + doe := by omega
  have hera : (146097 * era + doe) / 146097 = era := by omega
  have hrest : 146097 * era + doe - 146097 * era = doe := by omega
  have hdoy : doe - (365 * yoe + yoe / 4 - yoe / 100) = doy := by omega
  simp only [civilFromDays, hz, hera, hrest, hyoe, hdoy, hmonth, hday]

/-- 44_gps_time.md R161: on every date CivilFromDays undoes DaysFromCivil. -/
theorem civilFromDays_daysFromCivil {y m d : Nat} (hm0 : 1 ≤ m) (hm : m ≤ 12) (hd0 : 1 ≤ d)
    (hd : d ≤ daysInMonth y m) : civilFromDays (daysFromCivil y m d) = ((y : Int), (m : Int), (d : Int)) := by
  obtain ⟨hd31, hd30, hfeb⟩ := daysInMonth_facts y m d hd
  obtain ⟨hmonth, hday, hdoy0, hdoy, hlast⟩ := month_of_day (((m : Int) + 9) % 12) d
    (by omega) (by omega) (by omega) (by omega) (by omega) (by omega)
  have hm' : (if ((m : Int) + 9) % 12 < 10 then ((m : Int) + 9) % 12 + 3 else ((m : Int) + 9) % 12 - 9) = m := by
    split <;> omega
  simp only [daysFromCivil]
  generalize hy' : (y : Int) - (if (m : Int) ≤ 2 then 1 else 0) = y'
  have hyear := yearOfEra_of_dayOfEra (yoe := y' - 400 * (y' / 400)) (by omega) (by omega) hdoy0 hdoy
    (fun h => by obtain ⟨hmp, hd29⟩ := hlast h; split at hy' <;> omega)
  rw [civilFromDays_of_parts hyear hmonth hday]
  simp only [hm', Prod.mk.injEq, and_true]
  omega

/-! ### The command -/

/-- A time of week that is none is refused. -/
theorem timeResult_utcFromTow_late {s : State} (h : weekMs ≤ s.arg1.toNat) :
    timeResult .utcFromTow s = (.domainError, .clear, .zero) := if_pos h

/-- An instant before the epoch is refused. -/
theorem timeResult_utcFromTow_early {s : State} (h : s.arg1.toNat < weekMs) (he : utcElapsedMs s < 0) :
    timeResult .utcFromTow s = (.domainError, .clear, .zero) := by
  rw [timeResult, if_neg (Nat.not_le.mpr h), if_pos he]

/-- Any other instant is answered by its date, unless DATE has no room for the year. -/
theorem timeResult_utcFromTow_of_date {s : State} {y m d : Int} (h : s.arg1.toNat < weekMs) (he : 0 ≤ utcElapsedMs s)
    (hdate : civilFromDays (utcElapsedMs s / dayMs + epochDays) = (y, m, d)) :
    timeResult .utcFromTow s =
      if 65535 < y then (.domainError, .clear, .zero)
      else (.noError, .clear, ⟨dateWord y.toNat m.toNat d.toNat, BitVec.ofInt 32 (utcElapsedMs s % dayMs)⟩) := by
  rw [timeResult, if_neg (Nat.not_le.mpr h), if_neg (Int.not_lt.mpr he), hdate]

/-- Settles O40: one `timeResult_utcFromTow` lemma for each clause; the command's date is the statement's by
`civilFromDays_daysFromCivil`, and its DATE word by `dateWord_eq`. -/
theorem utcFromTowConvertsExactly : Obligations.UtcFromTowConvertsExactly := by
  intro s e failed
  have hexec := exec_time_eq (i := .utcFromTow) (by decide) s
  refine ⟨fun hlate => ?_, fun htow hearly => ?_, fun htow he y m d hm0 hm hd0 hd hdays => ?_⟩
  · rwa [timeResult_utcFromTow_late hlate] at hexec
  · rwa [timeResult_utcFromTow_early htow hearly] at hexec
  · have hdate : civilFromDays (utcElapsedMs s / dayMs + epochDays) = ((y : Int), (m : Int), (d : Int)) := by
      rw [epochDays_eq, ← civilFromDays_daysFromCivil hm0 hm hd0 hd, hdays]
      rfl
    rw [timeResult_utcFromTow_of_date htow he hdate] at hexec
    constructor
    · intro hy
      rwa [if_pos (by omega)] at hexec
    · intro hy
      have hd31 := (daysInMonth_facts y m d hd).1
      rw [if_neg (by omega), Int.toNat_natCast, Int.toNat_natCast, Int.toNat_natCast, dateWord_eq hm hd31] at hexec
      exact hexec

end Sys2Proof.Machine
end

section
/-! PROOF. How the engine completes a word that selects no command (60_exceptions.md R183), and what a host write meets
while a command is pending (R185). -/

namespace Sys2Proof.Machine

/-! ### A word that selects no command -/

/-- 30_encoding.md R81: the decoder rejects every word that is no command's. -/
theorem decode_error_of_no_command {w : Word} (h : ∀ i, w ≠ encode i) : ∃ e, decode w = .error e := by
  cases hd : decode w with
  | ok i => exact absurd (encode_of_decode hd) (h i)
  | error e => exact ⟨e, rfl⟩

theorem runCommandWord_illegal {w : Word} (h : ∀ i, w ≠ encode i) (s : State) :
    runCommandWord w s = .next (s.afterIllegalCommand w) := by
  obtain ⟨e, he⟩ := decode_error_of_no_command h
  rw [runCommandWord, he]
  rfl

theorem engineStep_pending {s : State} {w : Word} (hp : s.pending = some w) : engineStep s = runCommandWord w s := by
  rw [engineStep, hp]

/-- 10_state.md R27: STATUS as a number, each field weighted by its place in the word. -/
theorem statusWord_toNat (s : State) :
    s.statusWord.toNat = s.status.lastOp.toNat * 65536 + s.status.adv.towRange.toNat * 1024 +
      s.status.adv.timeMisaligned.toNat * 512 + s.status.adv.crcMismatch.toNat * 256 +
      s.status.err.code.toNat * 16 + s.status.done.toNat * 2 + s.busy.toNat := by
  simp only [State.statusWord, toNat_append_eq, BitVec.toNat_ofBool, BitVec.toNat_ofNat]
  omega

/-- 95_test_vectors.md table I: STATUS after an illegal command is LAST_OP, ERR 5 and DONE. -/
theorem statusWord_afterIllegalCommand (s : State) (w : Word) :
    (s.afterIllegalCommand w).statusWord.toNat = w.toNat % 256 * 65536 + 5 * 16 + 2 := by
  rw [statusWord_toNat]
  simp [State.afterIllegalCommand, State.busy, Advisories.clear, ErrKind.code]

/-- Settles O4: the engine's turn (`step_engine`) runs the pending word, which no row of the opcode map has
(`runCommandWord_illegal`); the number is `statusWord_afterIllegalCommand`. -/
theorem illegalWordCompletes : Obligations.IllegalWordCompletes := by
  intro s w hres hin hp hw
  refine ⟨?_, statusWord_afterIllegalCommand _ w⟩
  calc step s = engineStep s.taken := step_engine hres hin
    _ = runCommandWord w s.taken := engineStep_pending hp
    _ = .next (s.taken.afterIllegalCommand w) := runCommandWord_illegal hw _

/-! ### A write while a command is pending -/

/-- 20_memory.md R61: an RW row is a mapped row. -/
theorem WritableOffset.mapped {c : Config} {off : Nat} (h : WritableOffset c off) : MappedOffset c off := by
  obtain ⟨h4, hrow⟩ := h
  exact ⟨h4, by omega⟩

/-- In an allowed build every offset of an RW row selects a register the host may write. -/
theorem regAt_of_writableOffset {c : Config} (hc : c.wellFormed = true) {off : Nat} (h : WritableOffset c off) :
    ∃ r, regAt c off = some r ∧ r.writable = true := by
  cases hr : regAt c off with
  | none => exact absurd (WritableOffset.mapped h) (regAt_none hc hr)
  | some r => exact ⟨r, rfl, (regAt_some hc hr).2.2 h⟩

/-- Settles O44: the write reaches a writable register (`regAt_of_writableOffset`), and while a command is
pending every such write is the fault (`hostWrite_pending`). -/
theorem writeWhilePendingIsHostHazard : Obligations.WriteWhilePendingIsHostHazard := by
  intro s addr off v rest hc hacc hoff hp
  obtain ⟨r, hr, hw⟩ := regAt_of_writableOffset hc hoff
  rw [step_write hacc hr]
  exact hostWrite_pending hw hp

end Sys2Proof.Machine
end

section
/-! PROOF. What every command keeps: how it completes, what it reports, and what it leaves unchanged
(60_exceptions.md R180 to R182; 70_reset_and_hazards.md R209; 10_state.md R50). -/

namespace Sys2Proof.Machine

/-! ### The inversion of `exec` -/

/-- Everything a command that answers a next state can have done. -/
theorem exec_next {i : Instr} {s t : State} (h : exec i s = .next t) :
    (i ∈ frameCommands ∧ ∃ e, parseFrame s = .error (.raised e) ∧
      t = s.afterFrameCommand (opcodeOf i) e .clear .zero .zero .zero) ∨
    (i ∈ frameCommands ∧ ∃ f e a c m, parseFrame s = .ok f ∧ FrameResult s f i e a c m ∧
      t = s.afterFrameCommand (opcodeOf i) e a f c m) ∨
    (i ∈ timeCommands ∧
      t = s.afterTimeCommand (opcodeOf i) (timeResult i s).1 (timeResult i s).2.1 (timeResult i s).2.2) := by
  have answer : ∀ {u : State}, exec i s = .next u → t = u := fun hu => Host.Outcome.next.inj (h.symm.trans hu)
  obtain hi | hi := frame_or_time i
  · obtain ⟨e, hp, hu⟩ | ⟨f, e, a, c, m, hp, hr, hu⟩ | ⟨k, hk, -⟩ := exec_frame_cases hi s
    · exact .inl ⟨hi, e, hp, answer hu⟩
    · exact .inr (.inl ⟨hi, f, e, a, c, m, hp, hr, answer hu⟩)
    · rw [hk] at h; cases h
  · exact .inr (.inr ⟨hi, answer (exec_time_eq hi s)⟩)

/-! ### Completion -/

/-- A command reads an unwritten byte or answers a next state; no command is refused. -/
theorem exec_fault_or_next (i : Instr) (s : State) :
    (∃ t, exec i s = .next t) ∨
    ∃ k, exec i s = .fault (.unwrittenRead k) ∧ i ∈ frameCommands ∧ s.frameBase.toNat ≤ k ∧
      k < s.bufLen.toNat ∧ s.fbuf.read k = none := by
  obtain hi | hi := frame_or_time i
  · obtain ⟨e, -, hu⟩ | ⟨f, e, a, c, m, -, -, hu⟩ | ⟨k, hk, hlo, hhi, hnone⟩ := exec_frame_cases hi s
    · exact .inl ⟨_, hu⟩
    · exact .inl ⟨_, hu⟩
    · exact .inr ⟨k, hk, hi, hlo, hhi, hnone⟩
  · exact .inl ⟨_, exec_time_eq hi s⟩

/-- 10_state.md R21, R27: a completed command leaves nothing pending, DONE 1 and its opcode in LAST_OP; the inputs
are not the command's. -/
theorem exec_completes {i : Instr} {s t : State} (h : exec i s = .next t) :
    t.pending = none ∧ t.status.done = true ∧ t.status.lastOp = opcodeOf i ∧ t.inputs = s.inputs := by
  obtain ⟨-, e, -, rfl⟩ | ⟨-, f, e, a, c, m, -, -, rfl⟩ | ⟨-, rfl⟩ := exec_next h
  · exact ⟨rfl, rfl, rfl, rfl⟩
  · exact ⟨rfl, rfl, rfl, rfl⟩
  · exact ⟨rfl, rfl, rfl, rfl⟩

/-- Settles O29: by `exec_fault_or_next`, with `exec_completes` for the command that answers. -/
theorem commandCompletesOrReadsUnwrittenByte : Obligations.CommandCompletesOrReadsUnwrittenByte := by
  intro i s
  obtain ⟨t, ht⟩ | hfault := exec_fault_or_next i s
  · obtain ⟨hp, hd, hop, -⟩ := exec_completes ht
    exact .inl ⟨t, ht, hp, hd, hop⟩
  · exact .inr hfault

/-! ### The frame of the frame commands -/

/-- 40_frame_parser.md R112: a group the command has no business with stays cleared. -/
theorem FrameResult.untouched_groups {s : State} {f : FrameRegs} {i : Instr} {e : ErrKind} {a : Advisories}
    {c : CrcRegs} {m : Msm7Regs} (h : FrameResult s f i e a c m) :
    (i = .frameParse ∨ i = .msm7Decode → c = .zero) ∧ (i = .frameParse ∨ i = .crcCheck → m = .zero) := by
  cases h <;> simp

/-- Settles O34: each case of `exec_next` is an `afterFrameCommand` of `s`, which keeps FBUF; groups C and M
by `FrameResult.untouched_groups`. -/
theorem frameCommandsChangeOnlyTheirGroups : Obligations.FrameCommandsChangeOnlyTheirGroups := by
  intro i hi s t h
  obtain ⟨-, e, -, rfl⟩ | ⟨-, f, e, a, c, m, -, hr, rfl⟩ | ⟨ht, -⟩ := exec_next h
  · exact ⟨rfl, fun _ => rfl, fun _ => rfl, fun _ => rfl⟩
  · exact ⟨rfl, fun _ => rfl, hr.untouched_groups⟩
  · exact absurd ht (by revert hi; cases i <;> decide)

/-! ### Errors and advisories -/

/-- ParseFrame's errors are in the table of every frame command. -/
theorem parseFrame_raised_mem {i : Instr} (hi : i ∈ frameCommands) {s : State} {e : ErrKind}
    (h : parseFrame s = .error (.raised e)) : e ∈ errorsOf i := by
  obtain rfl | rfl := parseFrame_raised h
  · revert hi; cases i <;> decide
  · revert hi; cases i <;> decide

/-- A parsed frame's error is in the command's table: the header reader raises TruncatedFrame alone. -/
theorem FrameResult.err_mem {s : State} {f : FrameRegs} {i : Instr} {e : ErrKind} {a : Advisories} {c : CrcRegs}
    {m : Msm7Regs} (h : FrameResult s f i e a c m) : e ∈ errorsOf i := by
  cases h with
  | headerShort _ _ hr => rw [readMsm7_raised hr]; decide
  | decodedShort _ _ _ _ hr => rw [readMsm7_raised hr]; decide
  | _ => decide

/-- A time command succeeds without an advisory but for TOW_COMPARE's, or refuses with DomainError. -/
theorem timeResult_status {i : Instr} (hi : i ∈ timeCommands) (s : State) :
    (timeResult i s).1 ∈ errorsOf i ∧ (timeResult i s).2.1.crcMismatch = false ∧
    (timeResult i s).2.1.towRange = false ∧
    ((timeResult i s).2.1.timeMisaligned = true → i = .towCompare ∧ (timeResult i s).1 = .noError) := by
  cases i with
  | towFromUtc => simp only [timeResult]; split_ifs <;> exact ⟨by simp [errorsOf], rfl, rfl, nofun⟩
  | utcFromTow => simp only [timeResult]; split_ifs <;> exact ⟨by simp [errorsOf], rfl, rfl, nofun⟩
  | towCompare => exact ⟨List.mem_singleton_self _, rfl, rfl, fun _ => ⟨rfl, rfl⟩⟩
  | _ => exact absurd hi (by decide)

/-- Settles O32: `exec_next` says where the error comes from, and each source has its lemma. -/
theorem commandsReportOnlyTheirErrors : Obligations.CommandsReportOnlyTheirErrors := by
  intro i s t h
  obtain ⟨hi, e, hp, rfl⟩ | ⟨-, f, e, a, c, m, -, hr, rfl⟩ | ⟨hi, rfl⟩ := exec_next h
  · exact parseFrame_raised_mem hi hp
  · exact hr.err_mem
  · exact (timeResult_status hi s).1

/-- The advisories of a parsed frame's command. -/
theorem FrameResult.advisories {s : State} {f : FrameRegs} {i : Instr} {e : ErrKind} {a : Advisories} {c : CrcRegs}
    {m : Msm7Regs} (h : FrameResult s f i e a c m) :
    (a.crcMismatch = true →
      (i = .crcCheck ∧ e = .noError) ∨ (i = .frameDecode ∧ (e = .noError ∨ e = .truncatedFrame))) ∧
    (a.towRange = true → (i = .msm7Decode ∨ i = .frameDecode) ∧ e = .noError) ∧ a.timeMisaligned = false := by
  cases h with
  | parsed => decide
  | checked => exact ⟨fun _ => .inl ⟨rfl, rfl⟩, nofun, rfl⟩
  | gated => exact ⟨nofun, nofun, rfl⟩
  | headerShort => exact ⟨nofun, nofun, rfl⟩
  | header => exact ⟨nofun, fun _ => ⟨.inl rfl, rfl⟩, rfl⟩
  | skipped => exact ⟨fun _ => .inr ⟨rfl, .inl rfl⟩, nofun, rfl⟩
  | decodedShort _ _ _ _ hr => exact ⟨fun _ => .inr ⟨rfl, .inr (readMsm7_raised hr)⟩, nofun, rfl⟩
  | decoded => exact ⟨fun _ => .inr ⟨rfl, .inl rfl⟩, fun _ => ⟨.inr rfl, rfl⟩, rfl⟩

/-- Settles O33: a failed parse sets no advisory, and the other cases of `exec_next` have their lemmas. -/
theorem advisoriesBelongToTheirCommands : Obligations.AdvisoriesBelongToTheirCommands := by
  intro i s t h
  obtain ⟨-, e, -, rfl⟩ | ⟨-, f, e, a, c, m, -, hr, rfl⟩ | ⟨hi, rfl⟩ := exec_next h
  · exact ⟨nofun, nofun, nofun⟩
  · obtain ⟨hcrc, htow, htime⟩ := hr.advisories
    exact ⟨hcrc, htow, fun h => absurd h (ne_true_of_eq_false htime)⟩
  · obtain ⟨-, hcrc, htow, htime⟩ := timeResult_status hi s
    exact ⟨fun h => absurd h (ne_true_of_eq_false hcrc), fun h => absurd h (ne_true_of_eq_false htow), htime⟩

end Sys2Proof.Machine
end

section
/-! PROOF. The invariant of the block: it holds in the reset state and every step keeps it. The cases are those of
`StepNext`; STATUS and the result groups after a command have lemmas of their own. -/

namespace Sys2Proof.Machine

/-! ### Reset -/

/-- Whatever stands outside it, a block that has just been reset in an allowed build meets the invariant. -/
theorem inv_of_resetBlock {s : State} (hbuild : s.config.wellFormed = true) (b : Bool) :
    ({ resetBlock s with inReset := b } : State).Inv where
  build := hbuild
  fbufCanonical := Memory.wf_nil
  fbufWithin := nofun
  bufLen := Nat.zero_le _
  held hb := congrArg (fun b => { resetBlock s with inReset := b }) hb
  latched := nofun
  errProduced := nofun
  advCrc := nofun
  advTow := nofun
  advTime := nofun
  groupF := .inl rfl
  groupC := rfl
  groupCIdle := ⟨fun _ => rfl, nofun⟩
  groupM := ⟨fun _ => rfl, nofun⟩
  groupMLists := Msm7Regs.zero_consistent

/-- Settles O7: the reset state is the standard build, reset, with reset released. -/
theorem resetStateSatisfiesInv : Obligations.ResetStateSatisfiesInv :=
  inv_of_resetBlock (s := State.reset) (by decide) false

/-! ### The host's accesses -/

/-- Out of reset nothing is asked of a held block. -/
theorem held_of_running {t : State} (ht : t.inReset = false) :
    t.inReset = true → t = { resetBlock t with inReset := true } :=
  fun hheld => absurd hheld (ne_true_of_eq_false ht)

/-- Using up an input keeps the invariant. -/
theorem State.Inv.taken {s : State} (h : s.Inv) : s.taken.Inv :=
  { h with held := fun hr => congrArg State.taken (h.held hr) }

/-- BUF_LEN never takes more than FBUF_SIZE (10_state.md R28). -/
theorem bufLenOf_le (c : Config) (v : Word) : (bufLenOf c v).toNat ≤ c.fbufSize := by
  rw [bufLenOf, BitVec.toNat_ofNat]
  exact (Nat.mod_le _ _).trans (Nat.min_le_right _ _)

/-- An accepted write keeps the invariant: the latch clears what it must, BUF_LEN is clamped, FBUF stays canonical and
inside the buffer, and no other field that the host writes is in the invariant. -/
theorem State.Inv.writeReg {s : State} (h : s.Inv) (hres : s.inReset = false) {off : Nat} {r : Reg} (v : Word)
    (hr : regAt s.config off = some r) (hw : r.writable = true) : (writeReg s r v).Inv := by
  cases r with
  | cmd =>
    exact { h with
      held := held_of_running hres
      latched := fun w hw => ⟨Option.some.inj hw, rfl, rfl, rfl⟩
      errProduced := nofun
      advCrc := nofun
      advTow := nofun
      advTime := nofun }
  | bufLen => exact { h with held := held_of_running hres, bufLen := bufLenOf_le s.config v }
  | frameBase => exact { h with held := held_of_running hres }
  | leapSeconds => exact { h with held := held_of_running hres }
  | arg0 => exact { h with held := held_of_running hres }
  | arg1 => exact { h with held := held_of_running hres }
  | arg2 => exact { h with held := held_of_running hres }
  | allow n => exact { h with held := held_of_running hres }
  | fbuf i =>
    exact { h with
      held := held_of_running hres
      fbufCanonical := Memory.wf_write _ _ h.fbufCanonical
      fbufWithin := Memory.within_write _ h.fbufWithin (regAt_fbuf_lt hr) }
  | _ => exact absurd hw Bool.false_ne_true

/-! ### Completion -/

/-- What the invariant says of a STATUS that a command left. -/
structure Status.Lawful (st : Status) : Prop where
  errProduced : st.err ≠ .malformedHexToken
  advCrc : st.adv.crcMismatch = true →
    (st.lastOp = 0x02#8 ∨ st.lastOp = 0x04#8) ∧ (st.err = .noError ∨ st.lastOp = 0x04#8 ∧ st.err = .truncatedFrame)
  advTow : st.adv.towRange = true → (st.lastOp = 0x03#8 ∨ st.lastOp = 0x04#8) ∧ st.err = .noError
  advTime : st.adv.timeMisaligned = true → st.lastOp = 0x12#8 ∧ st.err = .noError

/-- The reserved kind is in no command's table (60_exceptions.md R180). -/
theorem malformedHexToken_not_mem (i : Instr) : ErrKind.malformedHexToken ∉ errorsOf i := by cases i <;> decide

/-- The tables of errors and advisories, read by LAST_OP. -/
theorem exec_status_lawful {i : Instr} {s t : State} (h : exec i s = .next t) : t.status.Lawful := by
  obtain ⟨-, -, hop, -⟩ := exec_completes h
  obtain ⟨hcrc, htow, htime⟩ := advisoriesBelongToTheirCommands i s t h
  have herr := commandsReportOnlyTheirErrors i s t h
  constructor
  · intro hbad
    exact malformedHexToken_not_mem i (hbad ▸ herr)
  · intro hadv
    rw [hop]
    obtain ⟨rfl, he⟩ | ⟨rfl, he⟩ := hcrc hadv
    · exact ⟨.inl rfl, .inl he⟩
    · exact ⟨.inr rfl, he.imp_right (⟨rfl, ·⟩)⟩
  · intro hadv
    rw [hop]
    obtain ⟨rfl | rfl, he⟩ := htow hadv
    · exact ⟨.inl rfl, he⟩
    · exact ⟨.inr rfl, he⟩
  · intro hadv
    obtain ⟨rfl, he⟩ := htime hadv
    exact ⟨hop, he⟩

/-! ### The result groups of a parsed frame -/

/-- Group C after a command that parsed `f`: cleared, or a comparison with the frame's checksum. -/
theorem FrameResult.groupC_cases {s : State} {f : FrameRegs} {i : Instr} {e : ErrKind} {a : Advisories} {c : CrcRegs}
    {m : Msm7Regs} (h : FrameResult s f i e a c m) : c = .zero ∨ ∃ x, c = compareCrc x f.crcRecv := by
  cases h with
  | checked | skipped | decodedShort | decoded => exact .inr ⟨_, rfl⟩
  | _ => exact .inl rfl

/-- Group M after a command that parsed `f`: cleared, or a header of a 1077 frame of at least 31 payload bytes. -/
theorem FrameResult.groupM_cases {s : State} {f : FrameRegs} {i : Instr} {e : ErrKind} {a : Advisories} {c : CrcRegs}
    {m : Msm7Regs} (h : FrameResult s f i e a c m) (hf : f.OfFrame) :
    m = .zero ∨ ∃ v, m = msm7Registers v ∧ f.msgnum = msm7Msgnum ∧ 31 ≤ f.frmLen.toNat := by
  cases h with
  | header hg v hr => exact .inr ⟨v, rfl, hg.1, readMsm7_ok_long hr⟩
  | decoded hc _ _ v hr => exact .inr ⟨v, rfl, (hf.msm7 hc).1, readMsm7_ok_long hr⟩
  | _ => exact .inl rfl

/-- What the invariant says of groups F, C and M. -/
structure GroupsLawful (f : FrameRegs) (c : CrcRegs) (m : Msm7Regs) : Prop where
  groupF : f = .zero ∨ f.OfFrame
  groupC : c.matched = (c.checked && c.crcCalc == f.crcRecv)
  groupCIdle : (c.checked = false → c = .zero) ∧ (c.checked = true → f.OfFrame)
  groupM : (m.valid = false → m = .zero) ∧ (m.valid = true → f.msgnum = msm7Msgnum ∧ 31 ≤ f.frmLen.toNat)
  groupMLists : m.Consistent

theorem groupsLawful_zero : GroupsLawful .zero .zero .zero where
  groupF := .inl rfl
  groupC := rfl
  groupCIdle := ⟨fun _ => rfl, nofun⟩
  groupM := ⟨fun _ => rfl, nofun⟩
  groupMLists := Msm7Regs.zero_consistent

theorem FrameResult.groupsLawful {s : State} {f : FrameRegs} {i : Instr} {e : ErrKind} {a : Advisories} {c : CrcRegs}
    {m : Msm7Regs} (h : FrameResult s f i e a c m) (hf : f.OfFrame) : GroupsLawful f c m where
  groupF := .inr hf
  groupC := by obtain rfl | ⟨x, rfl⟩ := h.groupC_cases <;> rfl
  groupCIdle := by
    obtain rfl | ⟨x, rfl⟩ := h.groupC_cases
    · exact ⟨fun _ => rfl, nofun⟩
    · exact ⟨nofun, fun _ => hf⟩
  groupM := by
    obtain rfl | ⟨v, rfl, hlong⟩ := h.groupM_cases hf
    · exact ⟨fun _ => rfl, nofun⟩
    · exact ⟨nofun, fun _ => hlong⟩
  groupMLists := by
    obtain rfl | ⟨v, rfl, -⟩ := h.groupM_cases hf
    · exact Msm7Regs.zero_consistent
    · exact msm7Registers_consistent v

/-! ### The engine -/

/-- What a completed command keeps of the state, and what it leaves in STATUS and in groups F, C and M, make the
invariant. -/
theorem State.Inv.afterFrameCommand {s : State} (h : s.Inv) (hres : s.inReset = false) {op : BitVec 8} {e : ErrKind}
    {a : Advisories} {f : FrameRegs} {c : CrcRegs} {m : Msm7Regs} (hst : (⟨true, e, a, op⟩ : Status).Lawful)
    (hg : GroupsLawful f c m) : (s.afterFrameCommand op e a f c m).Inv :=
  { hst, hg, h with
    held := held_of_running hres
    latched := nofun }

theorem State.Inv.afterTimeCommand {s : State} (h : s.Inv) (hres : s.inReset = false) {op : BitVec 8} {e : ErrKind}
    {a : Advisories} {g : TimeRegs} (hst : (⟨true, e, a, op⟩ : Status).Lawful) : (s.afterTimeCommand op e a g).Inv :=
  { hst, h with
    held := held_of_running hres
    latched := nofun }

theorem State.Inv.afterIllegalCommand {s : State} (h : s.Inv) (hres : s.inReset = false) (w : Word) :
    (s.afterIllegalCommand w).Inv :=
  { h with
    held := held_of_running hres
    latched := nofun
    errProduced := nofun
    advCrc := nofun
    advTow := nofun
    advTime := nofun }

/-- A command keeps the invariant. -/
theorem State.Inv.exec {s t : State} (hs : s.Inv) (hres : s.inReset = false) {i : Instr} (h : exec i s = .next t) :
    t.Inv := by
  have hst := exec_status_lawful h
  obtain ⟨-, e, -, rfl⟩ | ⟨-, f, e, a, c, m, hp, hr, rfl⟩ | ⟨-, rfl⟩ := exec_next h
  · exact hs.afterFrameCommand hres hst groupsLawful_zero
  · exact hs.afterFrameCommand hres hst (hr.groupsLawful (parseFrame_ofFrame hp))
  · exact hs.afterTimeCommand hres hst

/-- Executing a word that selects a command is executing the command; any other word completes as illegal. -/
theorem runCommandWord_cases (w : Word) (s : State) :
    (∃ i, w = encode i ∧ runCommandWord w s = Machine.exec i s) ∨
    runCommandWord w s = .next (s.afterIllegalCommand w) := by
  by_cases h : ∃ i, w = encode i
  · obtain ⟨i, rfl⟩ := h
    exact .inl ⟨i, rfl, by rw [runCommandWord, decode_encode]⟩
  · exact .inr (runCommandWord_illegal (not_exists.1 h) s)

theorem State.Inv.runCommandWord {s t : State} (hs : s.Inv) (hres : s.inReset = false) {w : Word}
    (h : runCommandWord w s = .next t) : t.Inv := by
  obtain ⟨i, -, hi⟩ | hill := runCommandWord_cases w s
  · exact hs.exec hres (hi.symm.trans h)
  · cases hill.symm.trans h
    exact hs.afterIllegalCommand hres w

/-- Settles O8: one case for each thing a step can have done (`step_next`). -/
theorem everyStepKeepsInv : Obligations.EveryStepKeepsInv := by
  intro s s' hs h
  cases step_next h with
  | quiet => exact hs.taken
  | read off v d hres => exact { hs.taken with held := held_of_running hres }
  | write off r v hr hw hp hres => exact hs.taken.writeReg hres v hr hw
  | command w t hp hres h => exact hs.taken.runCommandWord hres h
  | reset b => exact inv_of_resetBlock (s := s.taken) hs.build b

end Sys2Proof.Machine
end

section
/-! PROOF. The frame commands on frames that end early, stand one after the other, or are not of class MSM7
(40_frame_parser.md R105, R113; 42_msm7_reader.md R131; 43_frame_decode.md R151). -/

namespace Sys2Proof.Machine

/-! ### A frame past the buffer -/

/-- 40_frame_parser.md R105: the third check comes after the length bytes are read. -/
theorem parseFrame_past_buffer {s : State} {b1 b2 : Byte} (hroom : s.HasRoom 6)
    (h0 : s.fbuf.read s.frameBase.toNat = some s.config.preamble)
    (h1 : s.fbuf.read (s.frameBase.toNat + 1) = some b1) (h2 : s.fbuf.read (s.frameBase.toNat + 2) = some b2)
    (hpast : availableBytes s < (lengthField b1 b2).toNat + 6) :
    parseFrame s = .error (.raised .truncatedFrame) := by
  have h6 : ¬ availableBytes s < 6 := by simp only [availableBytes]; omega
  have hf0 : frameByte s 0 = .ok s.config.preamble := frameByte_of_read h0
  rw [parseFrame, if_neg h6, hf0, engine_ok_bind, if_neg (not_ne_iff.2 rfl), frameByte_of_read h1, engine_ok_bind,
    frameByte_of_read h2, engine_ok_bind]
  exact if_pos hpast

/-- Settles O14: ParseFrame raises the error (`parseFrame_past_buffer`), and every frame command completes with it. -/
theorem framePastTheBufferIsTruncatedFrame : Obligations.FramePastTheBufferIsTruncatedFrame := by
  intro i hi s b1 b2 hroom h0 h1 h2 hend
  have hpast : availableBytes s < (lengthField b1 b2).toNat + 6 := by
    rw [lengthField_toNat, availableBytes]
    omega
  exact exec_frame_raised hi (parseFrame_past_buffer hroom h0 h1 h2 hpast)

/-! ### Concatenated frames -/

/-- Bytes that follow others in FBUF stand that many bytes further on. -/
theorem State.HoldsBytes.of_append {s t : State} {xs ys : List Byte} (h : s.HoldsBytes (xs ++ ys))
    (hbuf : t.fbuf = s.fbuf) (hbase : t.frameBase.toNat = s.frameBase.toNat + xs.length) : t.HoldsBytes ys := by
  intro k hk
  have hread := h (xs.length + k) (by rw [List.length_append]; omega)
  rw [List.getElem_append_right (Nat.le_add_right _ _)] at hread
  rw [hbuf, hbase, Nat.add_assoc, hread]
  simp only [Nat.add_sub_cancel_left]

/-- 40_frame_parser.md R113: FRM_NEXT in FRAME_BASE's 12 bits is the index after the frame, when that fits. -/
theorem parsedRegs_frmNext_toNat {s : State} {f : WireFrame} (h : s.frameBase.toNat + f.len + 6 ≤ 4095) :
    ((s.parsedRegs f).frmNext.setWidth 12).toNat = s.frameBase.toNat + (f.len + 6) := by
  simp only [State.parsedRegs, BitVec.toNat_setWidth, BitVec.toNat_ofNat]
  omega

/-- Settles O16: FRAME_PARSE completes with FRM_NEXT the first frame's end, where the second frame's bytes follow. -/
theorem frmNextStartsTheNextFrame : Obligations.FrmNextStartsTheNextFrame := by
  intro s f g hf hboth hfits
  refine ⟨_, frameParseRecoversTheFrame s f hf.parsedBytes, ?_⟩
  refine hboth.of_append rfl ?_
  rw [f.length_bytes]
  exact parsedRegs_frmNext_toNat hfits

/-! ### A payload too short for a header, and other classes -/

/-- Settles O23: the frame is parsed (`parseFrame_of_held`), passes the gate and is too short for the header
(`readMsm7_of_short`), which is the `headerShort` result of `FrameResult`. -/
theorem msm7DecodeOfShortPayloadIsTruncated : Obligations.Msm7DecodeOfShortPayloadIsTruncated := by
  intro s f hf hmsg hin hshort
  have hgate := (parsedRegs_gate_iff s f).mpr ⟨hmsg, hin⟩
  have hread : readMsm7 s (s.parsedRegs f).frmLen.toNat = .error (.raised .truncatedFrame) := by
    rw [parsedRegs_frmLen_toNat s hf.1]
    exact readMsm7_of_short hf hshort
  exact exec_of_frameResult (parseFrame_of_held hf.parsedBytes) (.headerShort hgate _ hread)

/-- Settles O27: the frame is parsed (`parseFrame_of_held`) and its CRC computed (`frameCrc_of_parsedRegs`), and
nothing runs after that, which is the `skipped` result of `FrameResult`. -/
theorem frameDecodeSkipsOtherClasses : Obligations.FrameDecodeSkipsOtherClasses := by
  intro s f hf hclass
  rw [← compareCrc_eq, ← crcAdvisory_eq]
  exact exec_of_frameResult (parseFrame_of_held hf.parsedBytes) (.skipped hclass _ (frameCrc_of_parsedRegs hf))

end Sys2Proof.Machine
end

section
/-! PROOF. What a frame command's outcome depends on (20_memory.md R75): the same frame gives the same groups and
STATUS, or the same fault, stage by stage. -/

namespace Sys2Proof.Machine

/-- Two states with the same frame to read: what 20_memory.md R75 lets a frame command depend on. -/
structure SameFrame (s s' : State) : Prop where
  preamble : s'.config.preamble = s.config.preamble
  allowN : s'.config.allowN = s.config.allowN
  bufLen : s'.bufLen = s.bufLen
  frameBase : s'.frameBase = s.frameBase
  allow : s'.allow = s.allow
  bytes : ∀ j, j < s.bufLen.toNat → s'.fbuf.read j = s.fbuf.read j

theorem SameFrame.sameBytes {s s' : State} (h : SameFrame s s') : SameBytes s s' (availableBytes s) := by
  intro k hk
  rw [availableBytes] at hk
  simp only [frameByte, fb, h.frameBase, h.bytes _ (show s.frameBase.toNat + k < s.bufLen.toNat by omega)]

theorem SameFrame.parseFrame {s s' : State} (h : SameFrame s s') : parseFrame s' = parseFrame s :=
  parseFrame_congr h.preamble h.allowN h.bufLen h.frameBase h.allow h.sameBytes

/-- Reads of fewer bytes stay alike. -/
theorem SameBytes.mono {s s' : State} {m n : Nat} (h : SameBytes s s' n) (hm : m ≤ n) : SameBytes s s' m :=
  fun k hk => h k (by omega)

/-- The stages write groups F, C and M alone, so what they read stays alike. -/
theorem SameBytes.of_reads {s s' t t' : State} {n : Nat} (h : SameBytes s s' n) (hbuf : t.fbuf = s.fbuf)
    (hbase : t.frameBase = s.frameBase) (hbuf' : t'.fbuf = s'.fbuf) (hbase' : t'.frameBase = s'.frameBase) :
    SameBytes t t' n := by
  intro k hk
  have hread := h k hk
  simp only [frameByte, fb, hbuf, hbase, hbuf', hbase'] at hread ⊢
  exact hread

/-- Two outcomes a host cannot tell apart by groups F, C and M and STATUS, or by the fault. -/
inductive SameOutcome : Result → Result → Prop where
  | next {t t' : State} (hf : t'.groupF = t.groupF) (hc : t'.groupC = t.groupC) (hm : t'.groupM = t.groupM)
      (hs : t'.status = t.status) : SameOutcome (.next t) (.next t')
  | fault (r : Fault) : SameOutcome (.fault r) (.fault r)

/-- Two states that agree on groups F, C and M. -/
structure SameGroups (t t' : State) : Prop where
  groupF : t'.groupF = t.groupF
  groupC : t'.groupC = t.groupC
  groupM : t'.groupM = t.groupM

theorem SameGroups.complete {t t' : State} (h : SameGroups t t') (op : BitVec 8) (e : ErrKind) (a : Advisories) :
    SameOutcome (.next (completeCommand op e a t)) (.next (completeCommand op e a t')) :=
  .next h.groupF h.groupC h.groupM rfl

theorem SameGroups.stop {t t' : State} (h : SameGroups t t') (i : Instr) (a : Advisories) (stop : EngineStop) :
    SameOutcome (stopCommand i a t stop) (stopCommand i a t' stop) := by
  cases stop with
  | raised e => exact h.complete _ e a
  | unwritten k => exact .fault _

/-- The shared start (40_frame_parser.md R112): the same parse, handed on with the same groups. -/
theorem SameFrame.withParsedFrame {s s' : State} (h : SameFrame s s') (i : Instr)
    {rest rest' : FrameRegs → State → Result}
    (hrest : ∀ f t t', f.frmLen.toNat + 6 ≤ availableBytes s → SameGroups t t' →
      SameBytes t t' (availableBytes s) → SameOutcome (rest f t) (rest' f t')) :
    SameOutcome (withParsedFrame i s rest) (withParsedFrame i s' rest') := by
  simp only [Machine.withParsedFrame, parseFrame_clear, h.parseFrame]
  cases hp : Machine.parseFrame s with
  | error stop =>
    have hcleared : SameGroups (clearFrameGroups s) (clearFrameGroups s') := ⟨rfl, rfl, rfl⟩
    exact hcleared.stop i .clear stop
  | ok f =>
    have hroom := (parseFrame_ok hp).1
    exact hrest f _ _ (by rw [availableBytes]; omega) ⟨rfl, rfl, rfl⟩ (h.sameBytes.of_reads rfl rfl rfl rfl)

/-- The CRC stage (41_crc24q.md R121): the same bytes give the same comparison. -/
theorem SameBytes.withFrameCrc {t t' : State} {n : Nat} (h : SameBytes t t' n) (hg : SameGroups t t') (i : Instr)
    {f : FrameRegs} (hn : f.frmLen.toNat + 6 ≤ n) {rest rest' : Advisories → State → Result}
    (hrest : ∀ a u u', SameGroups u u' → SameBytes u u' n → SameOutcome (rest a u) (rest' a u')) :
    SameOutcome (withFrameCrc i f t rest) (withFrameCrc i f t' rest') := by
  simp only [Machine.withFrameCrc, h.frameCrc (show f.frmLen.toNat + 3 ≤ n by omega)]
  cases Machine.frameCrc t (f.frmLen.toNat + 3) with
  | error stop => exact hg.stop i _ stop
  | ok c => exact hrest _ _ _ ⟨hg.groupF, rfl, hg.groupM⟩ (h.of_reads rfl rfl rfl rfl)

/-- The MSM7 stage (42_msm7_reader.md R131): the same payload gives the same header. -/
theorem SameBytes.decodeMsm7Header {t t' : State} {n : Nat} (h : SameBytes t t' n) (hg : SameGroups t t') (i : Instr)
    (a : Advisories) {f : FrameRegs} (hn : f.frmLen.toNat + 6 ≤ n) :
    SameOutcome (decodeMsm7Header i a f t) (decodeMsm7Header i a f t') := by
  simp only [Machine.decodeMsm7Header, (h.mono (show 3 + f.frmLen.toNat ≤ n by omega)).readMsm7]
  cases Machine.readMsm7 t f.frmLen.toNat with
  | error stop => exact hg.stop i a stop
  | ok v => exact .next hg.groupF hg.groupC rfl rfl

/-- Each frame command is made of stages that keep the outcomes alike. -/
theorem SameFrame.exec {s s' : State} (h : SameFrame s s') {i : Instr} (hi : i ∈ frameCommands) :
    SameOutcome (exec i s) (exec i s') := by
  cases i with
  | frameParse => exact h.withParsedFrame .frameParse fun f t t' _ hg _ => hg.complete _ _ _
  | crcCheck =>
    simp only [Machine.exec, execCrcCheck]
    refine h.withParsedFrame .crcCheck fun f t t' hn hg hb => ?_
    exact hb.withFrameCrc hg .crcCheck hn fun a u u' hg _ => hg.complete _ _ a
  | msm7Decode =>
    simp only [Machine.exec, execMsm7Decode]
    refine h.withParsedFrame .msm7Decode fun f t t' hn hg hb => ?_
    split
    · exact hb.decodeMsm7Header hg _ _ hn
    · exact hg.complete _ _ _
  | frameDecode =>
    simp only [Machine.exec, execFrameDecode]
    refine h.withParsedFrame .frameDecode fun f t t' hn hg hb => ?_
    refine hb.withFrameCrc hg .frameDecode hn fun a u u' hg hb => ?_
    cases f.frmClass with
    | msm7 => exact hb.decodeMsm7Header hg _ _ hn
    | _ => exact hg.complete _ _ _
  | _ => exact absurd hi (by decide)

/-- Settles O15: the hypotheses are `SameFrame`, and the two clauses are the two cases of `SameOutcome`. -/
theorem frameCommandsDependOnlyOnTheFrame : Obligations.FrameCommandsDependOnlyOnTheFrame := by
  intro i hi s s' hpre hn hlen hbase hallow hbytes
  have hsame := SameFrame.exec ⟨hpre, hn, hlen, hbase, hallow, hbytes⟩ hi
  constructor
  · intro t ht
    rw [ht] at hsame
    generalize exec i s' = r' at hsame
    cases hsame with
    | next hf hc hm hs => exact ⟨_, rfl, hf, hc, hm, hs⟩
  · intro r hr
    rw [hr] at hsame
    generalize exec i s' = r' at hsame
    cases hsame
    rfl

end Sys2Proof.Machine
end

section
/-! PROOF. The laws of CRC-24Q: the reference values, the residue, linearity and single bit flips (41_crc24q.md
section 3). All but the values follow from the steps being linear, losing nothing and shifting out a top byte of 0. -/

namespace Sys2Proof.Machine

/-- Settles O18: the procedure run on each string. -/
theorem crcReferenceValues : Obligations.CrcReferenceValues := by
  unfold Obligations.CrcReferenceValues
  decide +kernel

/-! ### The accumulator keeps 24 bits -/

/-- Folding bytes into a 24-bit accumulator leaves a 24-bit accumulator. -/
theorem crcFold_top (bytes : List Byte) {acc : BitVec 25} (h : acc.getLsbD 24 = false) :
    (bytes.foldl crcByteStep acc).getLsbD 24 = false := by
  induction bytes generalizing acc with
  | nil => exact h
  | cons b bs ih => exact ih (crcByteStep_top acc b)

/-- The register form loses nothing of a 24-bit accumulator. -/
theorem setWidth24_setWidth25 {acc : BitVec 25} (h : acc.getLsbD 24 = false) : (acc.setWidth 24).setWidth 25 = acc := by
  apply BitVec.eq_of_getLsbD_eq
  intro i hi
  obtain rfl | hi : i = 24 ∨ i < 24 := by omega
  · rw [h, BitVec.getLsbD_setWidth, BitVec.getLsbD_of_ge _ _ (Nat.le_refl 24), Bool.and_false]
  · simp [hi, show i < 25 by omega]

/-- The accumulator is the CRC, zero-extended. -/
theorem crcFold_eq_crc24q (bytes : List Byte) : bytes.foldl crcByteStep 0#25 = (crc24q bytes).setWidth 25 :=
  (setWidth24_setWidth25 (crcFold_top bytes rfl)).symm

/-! ### Law 3: the residue -/

/-- As long as only zeros leave at bit 23, the steps are a plain shift. -/
theorem crcBitSteps_shift (n : Nat) {a : BitVec 25} (h : ∀ i, i < n → a.getLsbD (23 - i) = false) (hn : n ≤ 23) :
    Nat.iterate crcBitStep n a = a <<< n := by
  induction n with
  | zero => simp
  | succ n ih =>
    have h23 : (a <<< n).getLsbD 23 = false := by
      rw [BitVec.getLsbD_shiftLeft, h n (by omega), Bool.and_false]
    rw [Function.iterate_succ_apply', ih (fun i hi => h i (by omega)) (by omega), crcBitStep_shift h23,
      ← BitVec.shiftLeft_add]

/-- A byte that meets itself at the accumulator's top cancels, and the rest moves up by a byte. -/
theorem crcByteStep_own_top (b : Byte) (rest : BitVec 16) :
    crcByteStep ((b ++ rest : BitVec 24).setWidth 25) b = (rest ++ 0#8 : BitVec 24).setWidth 25 := by
  have hcancel : (b ++ rest : BitVec 24).setWidth 25 ^^^ (b.setWidth 25 <<< 16) = rest.setWidth 25 := by
    apply BitVec.eq_of_getLsbD_eq
    intro i hi
    simp only [BitVec.getLsbD_xor, BitVec.getLsbD_setWidth, BitVec.getLsbD_append, BitVec.getLsbD_shiftLeft]
    by_cases h16 : i < 16
    · simp [h16]
    · simp [h16, hi, show i - 16 < 25 by omega, BitVec.getLsbD_of_ge rest i (by omega)]
  rw [crcByteStep, hcancel, crcBitSteps_shift 8 (fun i hi => ?_) (by decide)]
  · apply BitVec.eq_of_getLsbD_eq
    intro i hi
    simp only [BitVec.getLsbD_setWidth, BitVec.getLsbD_append, BitVec.getLsbD_shiftLeft]
    by_cases h8 : i < 8
    · simp [h8]
    · simp [h8, hi, show i - 8 < 25 by omega]
  · rw [BitVec.getLsbD_setWidth, BitVec.getLsbD_of_ge rest _ (by omega), Bool.and_false]

/-- A CRC's own three bytes bring the accumulator to 0. -/
theorem crcFold_own_bytes (c : BitVec 24) :
    [c.extractLsb' 16 8, c.extractLsb' 8 8, c.extractLsb' 0 8].foldl crcByteStep (c.setWidth 25) = 0#25 := by
  have key (b2 b1 b0 : Byte) : [b2, b1, b0].foldl crcByteStep ((b2 ++ b1 ++ b0 : BitVec 24).setWidth 25) = 0#25 := by
    have assoc (x y z : Byte) : (x ++ y ++ z : BitVec 24) = x ++ (y ++ z : BitVec 16) := BitVec.append_assoc
    simp only [List.foldl_cons, List.foldl_nil]
    rw [assoc, crcByteStep_own_top, assoc, crcByteStep_own_top, assoc, crcByteStep_own_top]
    rfl
  have hbytes := key (c.extractLsb' 16 8) (c.extractLsb' 8 8) (c.extractLsb' 0 8)
  rwa [bytes_of_value24] at hbytes

/-- Settles O19: the message leaves its CRC in the accumulator, and the CRC's bytes bring that to 0. -/
theorem crcOfMessageWithItsCrcIsZero : Obligations.CrcOfMessageWithItsCrcIsZero := by
  intro m
  rw [crc24q, List.foldl_append, crcFold_eq_crc24q, crcFold_own_bytes, BitVec.setWidth_zero]

/-! ### Law 4: linearity -/

/-- The fold is linear in accumulator and bytes together. -/
theorem crcFold_xor (a b : List Byte) (hlen : a.length = b.length) (p q : BitVec 25) :
    (List.zipWith (· ^^^ ·) a b).foldl crcByteStep (p ^^^ q) = a.foldl crcByteStep p ^^^ b.foldl crcByteStep q := by
  induction a generalizing b p q with
  | nil =>
    obtain rfl := List.length_eq_zero_iff.1 hlen.symm
    rfl
  | cons x xs ih =>
    cases b with
    | nil => cases hlen
    | cons y ys =>
      simp only [List.zipWith_cons_cons, List.foldl_cons, crcByteStep_xor]
      exact ih ys (Nat.succ.inj hlen) _ _

/-- Settles O20: `crcFold_xor` from the initial value 0 on both sides. -/
theorem crcIsLinear : Obligations.CrcIsLinear := by
  intro a b hlen
  have hfold := crcFold_xor a b hlen 0#25 0#25
  rw [BitVec.xor_self] at hfold
  rw [crc24q, hfold, BitVec.setWidth_xor]
  rfl

/-! ### Law 5: single bit flips -/

/-- A byte step loses no difference of 24-bit accumulators. -/
theorem crcByteStep_acc_inj {p q : BitVec 25} {x : Byte} (hp : p.getLsbD 24 = false) (hq : q.getLsbD 24 = false)
    (h : crcByteStep p x = crcByteStep q x) : p = q := by
  have hxor : crcByteStep (p ^^^ q) (x ^^^ x) = 0#25 := by rw [crcByteStep_xor, h, BitVec.xor_self]
  simp only [crcByteStep, BitVec.xor_self, BitVec.setWidth_zero, BitVec.zero_shiftLeft, BitVec.xor_zero] at hxor
  have htop : (p ^^^ q).getLsbD 24 = false := by rw [BitVec.getLsbD_xor, hp, hq, Bool.xor_false]
  exact BitVec.xor_eq_zero_iff.1 (crcBitSteps_eq_zero 8 htop hxor)

/-- A byte step loses no difference of bytes. -/
theorem crcByteStep_byte_inj {p : BitVec 25} {x y : Byte} (h : crcByteStep p x = crcByteStep p y) : x = y := by
  have hxor : crcByteStep (p ^^^ p) (x ^^^ y) = 0#25 := by rw [crcByteStep_xor, h, BitVec.xor_self]
  rw [BitVec.xor_self, crcByteStep, BitVec.zero_xor] at hxor
  have htop : ((x ^^^ y).setWidth 25 <<< 16).getLsbD 24 = false := by
    rw [BitVec.getLsbD_shiftLeft, BitVec.getLsbD_setWidth, BitVec.getLsbD_of_ge (x ^^^ y) _ (by decide)]
    rfl
  have hzero := crcBitSteps_eq_zero 8 htop hxor
  apply BitVec.xor_eq_zero_iff.1
  apply BitVec.eq_of_getLsbD_eq
  intro i hi
  have hbit := congrArg (BitVec.getLsbD · (i + 16)) hzero
  simpa [BitVec.getLsbD_shiftLeft, show i + 16 < 25 by omega, show i < 25 by omega] using hbit

/-- The bytes that follow lose no difference of 24-bit accumulators. -/
theorem crcFold_inj (bytes : List Byte) {p q : BitVec 25} (hp : p.getLsbD 24 = false) (hq : q.getLsbD 24 = false)
    (h : bytes.foldl crcByteStep p = bytes.foldl crcByteStep q) : p = q := by
  induction bytes generalizing p q with
  | nil => exact h
  | cons b bs ih => exact crcByteStep_acc_inj hp hq (ih (crcByteStep_top p b) (crcByteStep_top q b) h)

/-- Byte strings that differ in one byte have different CRCs. -/
theorem crc24q_byte_inj {pre suf : List Byte} {x y : Byte} (h : crc24q (pre ++ x :: suf) = crc24q (pre ++ y :: suf)) :
    x = y := by
  have hfold := congrArg (BitVec.setWidth 25) h
  rw [← crcFold_eq_crc24q, ← crcFold_eq_crc24q, List.foldl_append, List.foldl_append] at hfold
  exact crcByteStep_byte_inj (crcFold_inj suf (crcByteStep_top _ x) (crcByteStep_top _ y) hfold)

/-- Flipping a bit changes a byte. -/
theorem xor_twoPow_ne (b : Byte) (bit : Fin 8) : b ^^^ BitVec.twoPow 8 bit.val ≠ b := by
  intro h
  have hbit := congrArg (BitVec.getLsbD · bit.val) h
  simp at hbit

/-- Settles O21: the flipped string differs in one byte alone. -/
theorem crcSeesEverySingleBitFlip : Obligations.CrcSeesEverySingleBitFlip := by
  intro m j bit hj hcrc
  have hsplit : m = m.take j ++ m[j] :: m.drop (j + 1) := by
    rw [List.getElem_cons_drop, List.take_append_drop]
  rw [List.set_eq_take_append_cons_drop, if_pos hj] at hcrc
  refine xor_twoPow_ne m[j] bit (crc24q_byte_inj (pre := m.take j) (suf := m.drop (j + 1)) ?_)
  rw [← hsplit]
  exact hcrc

end Sys2Proof.Machine
end

section
/-! PROOF. Every payload of a 1077 frame that is long enough carries a header, because a header and its 233 bits
determine each other (30_encoding.md R85). -/

namespace Sys2Proof.Machine

/-- The header whose bits, in wire order, are those of `w` (30_encoding.md R85). -/
def headerOfWire (w : BitVec 233) : Msm7Header where
  stationId := w.extractLsb' 221 12
  timeOfWeekMs := w.extractLsb' 191 30
  syncFlag := w.extractLsb' 190 1
  issueOfData := w.extractLsb' 187 3
  timeS := w.extractLsb' 180 7
  clockSteering := w.extractLsb' 178 2
  externalClock := w.extractLsb' 176 2
  smoothingIndicator := w.extractLsb' 174 2
  smoothingIntervalS := w.extractLsb' 171 3
  satelliteCount := w.extractLsb' 165 6
  signalCount := w.extractLsb' 160 5
  cellMask := w.extractLsb' 96 64
  satelliteMask := w.extractLsb' 32 64
  signalMask := w.extractLsb' 0 32

/-- The fields are adjacent and cover all 233 bits. -/
theorem headerOfWire_wire (w : BitVec 233) : (headerOfWire w).wire = w := by
  simp only [Msm7Header.wire, headerOfWire]
  iterate 13 rw [BitVec.extractLsb'_append_extractLsb'_eq_extractLsb' (by rfl)]
  exact BitVec.extractLsb'_eq_self

/-- The 233 bits of a payload that follow the message number. -/
def WireFrame.headerBits (f : WireFrame) : BitVec 233 :=
  BitVec.ofFnBE fun i => (wireBits f.payload).getD (12 + i.val) false

theorem WireFrame.getElem?_wireBits_header {f : WireFrame} (h : 31 ≤ f.len) {j : Nat} (hj : j < 233) :
    (wireBits f.payload)[12 + j]? = some (f.headerBits.getMsbD j) := by
  have hlt : 12 + j < (wireBits f.payload).length := by
    rw [wireBits_length]
    have : f.payload.length = f.len := rfl
    omega
  rw [WireFrame.headerBits, BitVec.getMsbD_ofFnBE, dif_pos hj, List.getD_eq_getElem _ _ hlt,
    List.getElem?_eq_getElem hlt]

/-- Settles O26: the header is the one of the payload's bits, so the payload carries it bit by bit: the message number
by `wireBits_msgnum`, the header by `headerOfWire_wire`. -/
theorem everyPayloadCarriesSomeHeader : Obligations.EveryPayloadCarriesSomeHeader := by
  intro f hlen hmsg
  refine ⟨headerOfWire f.headerBits, List.ext_getElem? fun i => ?_⟩
  rw [headerOfWire_wire, bitsOf_getElem?]
  by_cases hi : i < 245
  · rw [List.getElem?_take_of_lt hi, if_pos (by omega)]
    by_cases h12 : i < 12
    · rw [wireBits_msgnum (by omega) i h12, getMsbD_append_front _ _ h12, hmsg]
      rfl
    · obtain ⟨j, rfl⟩ := Nat.exists_eq_add_of_le (Nat.le_of_not_lt h12)
      rw [f.getElem?_wireBits_header hlen (by omega), getMsbD_append_back _ _ _ j rfl]
  · rw [List.getElem?_take_eq_none (by omega), if_neg (by omega)]

end Sys2Proof.Machine
end

section
/-! PROOF. The allowlist entries a build lacks (10_state.md R33). -/

namespace Sys2Proof.Machine

/-- An entry the build lacks is not searched. -/
theorem allowed_set_missing {s : State} {n : Fin 8} (hn : s.config.allowN ≤ n.val) (e : AllowEntry) (mn : BitVec 12) :
    allowed { s with allow := s.allow.set n.val e } mn = allowed s mn := by
  simp only [allowed, Vector.toList_set, List.take_set_of_le hn]

/-- Settles O53: the offset by `regAt_allow`, the demux because the allowlist search is the same. -/
theorem missingAllowEntriesAreIgnored : Obligations.MissingAllowEntriesAreIgnored := by
  intro s n e _ hn
  refine ⟨(regAt_allow n).trans (if_neg (Nat.not_lt.2 hn)), fun mn inpay => ?_⟩
  simp only [demux, allowed_set_missing hn e]

end Sys2Proof.Machine
end

section
/-! PROOF. The calendar: each day's count is one more than the day before's, and CivilFromDays undoes the count on every
day number (44_gps_time.md R160 to R162). -/

namespace Sys2Proof.Machine

/-! ### The next day -/

theorem daysFromCivil_add_day (y m d : Int) : daysFromCivil y m (d + 1) = daysFromCivil y m d + 1 := by
  simp only [daysFromCivil]
  omega

/-- 44_gps_time.md R162: the day after a February's last is 1 March, in a leap year and in any other. -/
theorem daysFromCivil_march (y : Nat) :
    daysFromCivil y 3 1 = daysFromCivil y 2 (if isLeapYear y then 29 else 28 : Nat) + 1 := by
  simp only [daysFromCivil, isLeapYear]
  norm_num
  split <;> omega

/-- The day after a month's last is the next month's first, within a year. -/
theorem daysFromCivil_next_month {y m : Nat} (hm0 : 1 ≤ m) (hm : m < 12) :
    daysFromCivil y (m + 1 : Nat) 1 = daysFromCivil y m (daysInMonth y m : Nat) + 1 := by
  by_cases h2 : m = 2
  · subst h2
    exact daysFromCivil_march y
  · interval_cases m <;> simp [daysFromCivil, daysInMonth] at h2 ⊢ <;> omega

/-- The day after 31 December is 1 January of the next year. -/
theorem daysFromCivil_next_year (y : Int) : daysFromCivil (y + 1) 1 1 = daysFromCivil y 12 31 + 1 := by
  simp only [daysFromCivil]
  norm_num
  omega

/-- Settles O36: the two anchors compute, and each clause is one of the three successor lemmas. -/
theorem dayCountAdvancesWithTheCalendar : Obligations.DayCountAdvancesWithTheCalendar := by
  refine ⟨by decide, by decide, fun y m d hm0 hm hd0 hd => ⟨fun _ => ?_, ?_, ?_⟩⟩
  · exact daysFromCivil_add_day y m d
  · rintro rfl hlt
    exact daysFromCivil_next_month hm0 hlt
  · rintro rfl rfl
    exact daysFromCivil_next_year y

/-! ### The inverse -/

/-- DaysFromCivil puts together the parts that `civilFromDays_of_parts` cuts a day number into. -/
theorem daysFromCivil_of_parts {era yoe mp d : Int} (h0 : 0 ≤ yoe) (h399 : yoe ≤ 399) (hmp0 : 0 ≤ mp) (hmp : mp ≤ 11) :
    let m := if mp < 10 then mp + 3 else mp - 9
    daysFromCivil (yoe + 400 * era + (if m ≤ 2 then 1 else 0)) m d =
      146097 * era + (365 * yoe + yoe / 4 - yoe / 100 + ((153 * mp + 2) / 5 + d - 1)) - 719468 := by
  intro m
  have hmp' : (m + 9) % 12 = mp := by simp only [m]; split <;> omega
  have hy : yoe + 400 * era + (if m ≤ 2 then 1 else 0) - (if m ≤ 2 then 1 else 0) = yoe + 400 * era := by omega
  have hera : (yoe + 400 * era) / 400 = era := by omega
  have hyoe : yoe + 400 * era - 400 * era = yoe := by omega
  simp only [daysFromCivil, hy, hera, hyoe, hmp']

/-- Month and day of any day of the year are in their ranges. -/
theorem monthOfDay_range {doy : Int} (h0 : 0 ≤ doy) (h : doy ≤ 365) :
    let mp := (5 * doy + 2) / 153
    0 ≤ mp ∧ mp ≤ 11 ∧ 1 ≤ doy - (153 * mp + 2) / 5 + 1 ∧ doy - (153 * mp + 2) / 5 + 1 ≤ 31 := by
  omega

/-- A day number as era, year of the era and day of the year, the year being the one CivilFromDays finds. -/
theorem dayNumber_parts (z : Int) : ∃ era yoe doy : Int,
    z = 146097 * era + (365 * yoe + yoe / 4 - yoe / 100 + doy) - 719468 ∧ 0 ≤ yoe ∧ yoe ≤ 399 ∧ 0 ≤ doy ∧ doy ≤ 365 ∧
    (doy = 365 → yoe % 4 = 3 ∧ (yoe % 100 ≠ 99 ∨ yoe = 399)) := by
  obtain ⟨c, q, t, doy, hdoe, hc0, hc, hq0, hq, ht0, ht, hdoy0, hdoy, hleap⟩ :=
    dayOfEra_split ((z + 719468) % 146097) (by omega) (by omega)
  refine ⟨(z + 719468) / 146097, 100 * c + 4 * q + t, doy, ?_, by omega, by omega, hdoy0, hdoy, by omega⟩
  rw [dayOfEra_eq c q t doy hq0 hq ht0 ht, ← hdoe]
  omega

/-- 44_gps_time.md R161: on every day number DaysFromCivil undoes CivilFromDays, which answers a month and a day. -/
theorem daysFromCivil_civilFromDays (z : Int) : let c := civilFromDays z
    daysFromCivil c.1 c.2.1 c.2.2 = z ∧ 1 ≤ c.2.1 ∧ c.2.1 ≤ 12 ∧ 1 ≤ c.2.2 ∧ c.2.2 ≤ 31 := by
  obtain ⟨era, yoe, doy, rfl, h0, h399, hdoy0, hdoy, hleap⟩ := dayNumber_parts z
  obtain ⟨hmp0, hmp, hd0, hd⟩ := monthOfDay_range hdoy0 hdoy
  rw [civilFromDays_of_parts (yearOfEra_of_dayOfEra h0 h399 hdoy0 hdoy hleap) rfl rfl]
  dsimp only
  rw [daysFromCivil_of_parts h0 h399 hmp0 hmp]
  refine ⟨by omega, ?_, ?_, hd0, hd⟩ <;> split <;> omega

/-- Settles O37: `daysFromCivil_civilFromDays` and `civilFromDays_daysFromCivil`. -/
theorem civilFromDaysInvertsDaysFromCivil : Obligations.CivilFromDaysInvertsDaysFromCivil :=
  ⟨daysFromCivil_civilFromDays, fun _ _ _ hm0 hm hd0 hd => civilFromDays_daysFromCivil hm0 hm hd0 hd⟩

end Sys2Proof.Machine
end

section
/-! PROOF. TOW_FROM_UTC against the source's formula, and its round trip through UTC_FROM_TOW (44_gps_time.md R164,
R166). -/

namespace Sys2Proof.Machine

/-- A TOW_FROM_UTC that succeeds accepted its operands. -/
theorem towFromUtc_accepted {s t : State} (h : exec .towFromUtc s = .next t) (hok : t.status.err = .noError) :
    validDate (dateYear s.arg0) (dateMonth s.arg0) (dateDay s.arg0) = true ∧ s.arg1.toNat < dayMs ∧
      0 ≤ gpsTotalMs s := by
  by_contra hbad
  rw [exec_time_eq (i := .towFromUtc) (by decide), timeResult_towFromUtc_refused hbad] at h
  cases h
  cases hok

/-- What a TOW_FROM_UTC that succeeds leaves in group G recomposes the exact GPS milliseconds. -/
theorem towFromUtc_recompose {s t : State} (h : exec .towFromUtc s = .next t) (hok : t.status.err = .noError) :
    (t.groupG.res0.toNat : Int) * 604800000 + t.groupG.res1.toNat = gpsTotalMs s ∧
      t.groupG.res1.toNat < 604800000 := by
  obtain ⟨hdate, ht, h0⟩ := towFromUtc_accepted h hok
  obtain ⟨-, -, -, hday, -⟩ := (validDate_iff _ _ _).mp hdate
  have hweek := gpsTotalMs_week_lt ht (daysInMonth_facts _ _ _ hday).1
  rw [exec_time_eq (i := .towFromUtc) (by decide), timeResult_towFromUtc_accepted hdate ht h0] at h
  cases h
  exact weekAndTow_recompose h0 hweek

/-- Settles O39: both sides denote the exact GPS milliseconds (`towFromUtc_recompose`), and inside one week quotient
and remainder are unique. -/
theorem towFromUtcAgreesWithTheSourceFormula : Obligations.TowFromUtcAgreesWithTheSourceFormula := by
  intro s t h hok E week towMs
  obtain ⟨hg, hlt⟩ := towFromUtc_recompose h hok
  obtain ⟨hy, hm, hd⟩ := date_fields s.arg0
  have hsame : gpsTotalMs s = week * 604800000 + towMs := by
    simp only [gpsTotalMs, hy, hm, hd, epochDays_eq, dayMs, leapOffset, week, towMs]
    simp only [E]
    omega
  rw [hsame] at hg
  exact ⟨fun _ => by omega, hg, by omega⟩

/-- A DATE word is that of its fields. -/
theorem dateWord_of_fields (w : Word) :
    BitVec.ofNat 32 (dateYear w * 65536 + dateMonth w * 256 + dateDay w) = w := by
  obtain ⟨hy, hm, hd⟩ := date_fields w
  have hsum : dateYear w * 65536 + dateMonth w * 256 + dateDay w = w.toNat := by omega
  rw [hsum, BitVec.ofNat_toNat, BitVec.setWidth_eq]

/-- Settles O41: the instant UTC_FROM_TOW takes from the results is the UTC instant the operands denote, whose day
count is the date's and whose rest is the time of day. -/
theorem utcFromTowUndoesTowFromUtc : Obligations.UtcFromTowUndoesTowFromUtc := by
  intro s t u h hok hu0 hu1 hul
  obtain ⟨hdate, ht, -⟩ := towFromUtc_accepted h hok
  obtain ⟨hm0, hm, hd0, hd, hepoch⟩ := (validDate_iff _ _ _).mp hdate
  obtain ⟨hg, hlt⟩ := towFromUtc_recompose h hok
  rw [← hu0, ← hu1] at hg
  rw [← hu1] at hlt
  have he : (u.arg0.toNat : Int) * 604800000 + u.arg1.toNat - u.leapSeconds.toInt * 1000 =
      (daysFromCivil (dateYear s.arg0) (dateMonth s.arg0) (dateDay s.arg0) - 3657) * 86400000 + s.arg1.toNat := by
    rw [hg, hul, gpsTotalMs, epochDays_eq, dayMs, leapOffset]
    omega
  rw [epochDays_eq] at hepoch
  rw [show dayMs = 86400000 from rfl] at ht
  have hy : dateYear s.arg0 ≤ 65535 := Nat.le_of_lt_succ (BitVec.isLt _)
  have hexec := ((utcFromTowConvertsExactly u).2.2 hlt (by omega) _ _ _ hm0 hm hd0 hd (by omega)).2 hy
  have hrest : ((daysFromCivil (dateYear s.arg0) (dateMonth s.arg0) (dateDay s.arg0) - 3657) * 86400000 +
      s.arg1.toNat) % 86400000 = s.arg1.toNat := by omega
  rwa [he, hrest, dateWord_of_fields, BitVec.ofInt_natCast, BitVec.ofNat_toNat, BitVec.setWidth_eq] at hexec

end Sys2Proof.Machine
end

section
/-! PROOF. Which command a word starts, and how the engine and the reset input step (30_encoding.md R80 to R82;
10_state.md R21; 70_reset_and_hazards.md R200, R208 to R211). -/

namespace Sys2Proof.Machine

/-! ### Encoding -/

/-- Settles O2: the decoder run on each word. -/
theorem sampleWordsDecode : Obligations.SampleWordsDecode := by
  unfold Obligations.SampleWordsDecode
  decide

/-- Settles O55: the two directions of `decode_eq_ok_iff`. -/
theorem decodeAndEncodeAreInverse : Obligations.DecodeAndEncodeAreInverse :=
  ⟨fun i _ => decode_encode i, fun _ _ h => (encode_of_decode h).symm⟩

/-! ### The engine's turn -/

/-- On its turn the engine runs the pending word. -/
theorem step_pending {s : State} {w : Word} (hres : s.inReset = false)
    (hin : s.inputs = [] ∨ s.inputs.head? = some .engineTurn) (hp : s.pending = some w) :
    step s = runCommandWord w s.taken :=
  (step_engine hres hin).trans (engineStep_pending hp)

/-- Settles O3: the pending word runs (`step_pending`) and the decoder selects its command. -/
theorem stepExecutesThePendingCommand : Obligations.StepExecutesThePendingCommand := by
  intro s w i hres hin hp hw
  rw [step_pending hres hin hp, runCommandWord, hw]

/-! ### The reset input -/

/-- Settles O6: both inputs reset the block, and what is outside it stays. -/
theorem resetInputRestoresTheResetState : Obligations.ResetInputRestoresTheResetState := by
  intro s rest
  constructor
  · intro hin
    cases hres : s.inReset with
    | true => simp only [step, hin, hres, if_true, heldStep]; rfl
    | false => simp only [step, hin, hres, Bool.false_eq_true, if_false, runStep]; rfl
  · intro hin hres
    simp only [step, hin, hres, if_true, heldStep, releaseReset]
    rfl

/-! ### The build -/

theorem exec_config {i : Instr} {s t : State} (h : exec i s = .next t) : t.config = s.config := by
  obtain ⟨-, e, -, rfl⟩ | ⟨-, f, e, a, c, m, -, -, rfl⟩ | ⟨-, rfl⟩ := exec_next h <;> rfl

theorem runCommandWord_config {w : Word} {s t : State} (h : runCommandWord w s = .next t) : t.config = s.config := by
  obtain ⟨i, -, hi⟩ | hill := runCommandWord_cases w s
  · exact exec_config (hi.symm.trans h)
  · cases hill.symm.trans h
    rfl

@[simp] theorem writeReg_config (s : State) (r : Reg) (v : Word) : (writeReg s r v).config = s.config := by
  cases r <;> rfl

/-- Settles O9: one case for each thing a step can have done (`step_next`). -/
theorem noStepChangesTheBuild : Obligations.NoStepChangesTheBuild := by
  intro s s' h
  cases step_next h with
  | quiet | read | reset => rfl
  | write off r v => exact writeReg_config s.taken r v
  | command w t _ _ h => exact runCommandWord_config (s := s.taken) h

/-! ### A quiet block -/

/-- With every available byte written a command completes: no read it makes is of an unwritten byte. -/
theorem exec_completes_of_available {s : State} (h : s.AvailableWritten) (i : Instr) : ∃ t, exec i s = .next t := by
  obtain ht | ⟨k, -, -, hlo, hhi, hnone⟩ := exec_fault_or_next i s
  · exact ht
  · have hwritten := h k hhi hlo
    rw [hnone] at hwritten
    cases hwritten

/-- 70_reset_and_hazards.md R209: with every available byte written a command word completes, whether it selects a
command or not. -/
theorem runCommandWord_completes {s : State} (h : s.AvailableWritten) (w : Word) :
    ∃ t, runCommandWord w s = .next t ∧ t.pending = none ∧ t.status.done = true ∧
      t.status.lastOp = w.extractLsb' 0 8 ∧ t.inputs = s.inputs := by
  obtain ⟨i, rfl, hi⟩ | hill := runCommandWord_cases w s
  · obtain ⟨t, ht⟩ := exec_completes_of_available h i
    exact ⟨t, hi.trans ht, exec_completes ht⟩
  · exact ⟨_, hill, rfl, rfl, rfl, rfl⟩

/-- Settles O30: with no input left the engine runs the pending word (`step_pending`), which completes
(`runCommandWord_completes`). -/
theorem pendingCommandCompletesInOneStep : Obligations.PendingCommandCompletesInOneStep := by
  intro s w hres hin hp havail
  obtain ⟨t, ht, hidle, hdone, hop, hinputs⟩ := runCommandWord_completes (s := s.taken) havail w
  have hfinal : t.Final := ⟨by rw [hinputs, State.taken, hin, List.tail_nil], hidle⟩
  exact ⟨t, (step_pending hres (.inl hin) hp).trans ht, hfinal, hdone, hop⟩

/-- A block held in reset with no input left stays as it is. -/
theorem step_held {s : State} (hres : s.inReset = true) (hin : s.inputs = []) : step s = .next s := by
  simp only [step, hin, quietStep, hres, if_true]

/-- From a quiet block one step leads to a state that no further step leaves; out of reset the run is then over. -/
theorem quiet_step {s : State} (hin : s.inputs = []) (havail : s.AvailableWritten) :
    ∃ t, step s = .next t ∧ step t = .next t ∧ (s.inReset = false → t.Final) := by
  cases hres : s.inReset with
  | true => exact ⟨s, step_held hres hin, step_held hres hin, nofun⟩
  | false =>
    cases hp : s.pending with
    | none => exact ⟨s, step_of_final ⟨hin, hp⟩, step_of_final ⟨hin, hp⟩, fun _ => ⟨hin, hp⟩⟩
    | some w =>
      obtain ⟨t, ht, hfinal, -⟩ := pendingCommandCompletesInOneStep s w hres hin hp havail
      exact ⟨t, ht, step_of_final hfinal, fun _ => hfinal⟩

/-- A run's first step. -/
theorem run_succ {s t : State} (h : step s = .next t) (k : Nat) :
    Sys2Proof.core.run (k + 1) s = Sys2Proof.core.run k t := by
  have hcore : Sys2Proof.core.step s = .next t := h
  simp only [Host.Core.run, hcore]

/-- A state that its step does not leave, no run leaves. -/
theorem run_of_fixed {t : State} (h : step t = .next t) (k : Nat) : Sys2Proof.core.run k t = .next t := by
  induction k with
  | zero => rfl
  | succ k ih => exact (run_succ h k).trans ih

/-- Settles O31: after its first step (`quiet_step`) the run stays where it is (`run_of_fixed`). -/
theorem quietBlockRunsSafely : Obligations.QuietBlockRunsSafely := by
  intro s k hin havail
  obtain ⟨t, hstep, hfixed, hfinal⟩ := quiet_step hin havail
  have hrun (n : Nat) : Sys2Proof.core.run (n + 1) s = .next t :=
    (run_succ hstep n).trans (run_of_fixed hfixed n)
  constructor
  · cases k with
    | zero => exact ⟨s, rfl⟩
    | succ n => exact ⟨t, hrun n⟩
  · intro hres u hu
    cases (hrun k).symm.trans hu
    exact ⟨hfinal hres, hfixed⟩

end Sys2Proof.Machine
end

section
/-! PROOF. The host's accesses: which are refused, what a read answers and what a write stores (20_memory.md R62 to R64,
R70; 10_state.md R26 to R33). -/

namespace Sys2Proof.Machine

/-! ### Refused accesses -/

theorem accessAt_narrow {off : Nat} {a : HostAccess} {s : State} (h : a.width ≠ .w32) :
    accessAt off a s = .fault (.busError off) := if_pos h

theorem accessAt_unmapped {off : Nat} {a : HostAccess} {s : State} (h : regAt s.config off = none) :
    accessAt off a s = .fault (.busError off) := by
  simp [accessAt, h]

/-- Settles O43: the checks come in the order width, mapping, access right, and in an allowed build the last two are
the map's ranges (`regAt_some`, `regAt_none`). -/
theorem refusedAccessIsBusError : Obligations.RefusedAccessIsBusError := by
  intro s a off rest hc hacc hrefused
  rw [step_access hacc]
  cases hr : regAt s.config off with
  | none => exact accessAt_unmapped hr
  | some r =>
    obtain ⟨hmapped, hwritable⟩ := regAt_some hc hr
    obtain hwidth | hunmapped | ⟨addr, v, rfl, hro⟩ := hrefused
    · exact accessAt_narrow hwidth
    · exact absurd hmapped hunmapped
    · have hreadOnly : r.writable = false := Bool.not_eq_true _ ▸ mt hwritable.1 hro
      exact (accessAt_write (s := { s with inputs := rest }) hr).trans (hostWrite_readOnly hreadOnly)

/-! ### Reads -/

/-- An idle read of a register that has a value. -/
theorem step_idle_read {s : State} {addr off : Nat} {r : Reg} {v : Word} {rest : List Input}
    (h : s.AccessNext (.read .w32 addr) off rest) (hr : regAt s.config off = some r) (hp : s.pending = none)
    (hv : readReg s r = some v) : step s = reply off v { s with inputs := rest } :=
  (step_read h hr).trans (hostRead_idle hp ((readReg_inputs s rest r).trans hv))

/-- A read while a command is pending. -/
theorem step_pending_read {s : State} {addr off : Nat} {r : Reg} {rest : List Input}
    (h : s.AccessNext (.read .w32 addr) off rest) (hr : regAt s.config off = some r) (hp : s.pending.isSome = true) :
    step s = readWhilePending off r { s with inputs := rest } :=
  (step_read h hr).trans (hostRead_pending hp)

/-- A word masked to a register's fields has no reserved bit. -/
theorem and_mask_reserved (v m : Word) : v &&& m &&& ~~~m = 0#32 := by
  rw [BitVec.and_assoc, BitVec.and_not_self]
  exact BitVec.and_zero

/-- Settles O45: STATUS and CMD by definition, any other register by the mask of the drawn word. -/
theorem readsWhilePending : Obligations.ReadsWhilePending := by
  intro s addr off r rest hacc hr hp
  rw [step_pending_read hacc hr hp]
  refine ⟨?_, ?_, fun hstatus hcmd => ⟨Config.busyReadDraw s.draws &&& r.fieldMask, and_mask_reserved _ _, ?_⟩⟩
  · rintro rfl
    rfl
  · rintro rfl
    rfl
  · cases r with
    | status => exact absurd rfl hstatus
    | cmd => exact absurd rfl hcmd
    | _ => rfl

/-- Settles O46: an idle read replies with the register's value (`step_idle_read`). -/
theorem idleReadsAnswerAndChangeNothing : Obligations.IdleReadsAnswerAndChangeNothing :=
  fun _ _ _ _ _ _ hacc hr hp hv => step_idle_read hacc hr hp hv

/-! ### Writes -/

/-- An idle write to a register the host may write. -/
theorem step_idle_write {s : State} {addr off : Nat} {r : Reg} {v : Word} {rest : List Input}
    (h : s.AccessNext (.write .w32 addr v) off rest) (hr : regAt s.config off = some r) (hw : r.writable = true)
    (hp : s.pending = none) : step s = .next (writeReg { s with inputs := rest } r v) :=
  (step_write h hr).trans (hostWrite_idle hw hp)

/-- 10_state.md R28: the WARL rule of BUF_LEN as a number. -/
theorem bufLenOf_eq (c : Config) (v : Word) : bufLenOf c v = BitVec.ofNat 13 (min (v.toNat % 8192) c.fbufSize) := by
  rw [bufLenOf, BitVec.extractLsb'_toNat, Nat.shiftRight_zero]

/-- Settles O49: each offset's register by the address map, and what it stores by `writeReg`. -/
theorem configurationWritesStoreTheirFields : Obligations.ConfigurationWritesStoreTheirFields := by
  intro s addr off v rest _ hacc hp
  obtain ⟨-, -, hlen, hbase, hleap, h0, h1, h2⟩ := regAt_control s.config
  have hwidth : v.setWidth 12 = v.extractLsb' 0 12 := BitVec.setWidth_eq_extractLsb' (by decide)
  rw [← bufLenOf_eq, hwidth]
  refine ⟨?_, ?_, ?_, ?_, ?_, ?_, fun n hn => ?_⟩ <;> rintro rfl
  · exact step_idle_write hacc hlen rfl hp
  · exact step_idle_write hacc hbase rfl hp
  · exact step_idle_write hacc hleap rfl hp
  · exact step_idle_write hacc h0 rfl hp
  · exact step_idle_write hacc h1 rfl hp
  · exact step_idle_write hacc h2 rfl hp
  · exact step_idle_write hacc ((regAt_allow n).trans (if_pos hn)) rfl hp

/-- Settles O52: `statusWord_toNat`, with the code of each error kind. -/
theorem statusWordLayout : Obligations.StatusWordLayout := by
  intro s
  rw [statusWord_toNat]
  generalize s.status.err = e
  cases e <;> rfl

/-- STATUS after a latch is LAST_OP and BUSY (10_state.md R26, R27). -/
theorem statusWord_latchCommand (w : Word) (s : State) :
    (latchCommand w s).statusWord = BitVec.ofNat 32 (s.status.lastOp.toNat * 65536 + 1) := by
  apply BitVec.eq_of_toNat_eq
  have hop := s.status.lastOp.isLt
  rw [statusWord_toNat, BitVec.toNat_ofNat, Nat.mod_eq_of_lt (by omega)]
  simp [State.busy, Advisories.clear, ErrKind.code]

/-- Settles O50: the write latches the word (`step_idle_write`), and STATUS is `statusWord_latchCommand`. -/
theorem cmdWriteLatchesTheCommand : Obligations.CmdWriteLatchesTheCommand := by
  intro s addr v rest hacc hp
  exact ⟨_, step_idle_write hacc (regAt_control s.config).1 rfl hp, rfl, statusWord_latchCommand v _⟩

end Sys2Proof.Machine
end

section
/-! PROOF. The registers' words: which bits they use, and what they are as numbers (10_state.md R25 to R49; 20_memory.md
R61). -/

namespace Sys2Proof.Machine

/-! ### Reserved bits -/

/-- A value has no bit outside a mask. -/
def Fits {n : Nat} (v mask : BitVec n) : Prop := v &&& ~~~mask = 0#n

theorem Fits.zero {n : Nat} (m : BitVec n) : Fits 0#n m := BitVec.zero_and

/-- Every bit is a field's. -/
theorem Fits.all {n : Nat} (v : BitVec n) : Fits v (BitVec.allOnes n) := by
  rw [Fits, BitVec.not_allOnes, BitVec.and_zero]

/-- Fields side by side. -/
theorem Fits.append {n k : Nat} {v mv : BitVec n} {w mw : BitVec k} (hv : Fits v mv) (hw : Fits w mw) :
    Fits (v ++ w) (mv ++ mw) := by
  rw [Fits, BitVec.not_append, BitVec.and_append, hv, hw, BitVec.zero_append_zero]

/-- One field at the bottom of a word. -/
theorem Fits.setWidth {n k : Nat} (v : BitVec n) : Fits (v.setWidth k) ((BitVec.allOnes n).setWidth k) := by
  apply BitVec.eq_of_getLsbD_eq
  intro i hi
  simp only [BitVec.getLsbD_and, BitVec.getLsbD_not, BitVec.getLsbD_setWidth, BitVec.getLsbD_allOnes]
  by_cases hn : i < n
  · simp [hi, hn]
  · simp [BitVec.getLsbD_of_ge v i (by omega)]

/-- The STATUS word's reserved bits are 0 (10_state.md R27). -/
theorem statusWord_fits (s : State) : Fits s.statusWord 0x00FF07F3#32 := by
  have hmask : (0x00FF07F3#32 : Word) = (0#8 ++ BitVec.allOnes 8 ++ 0#5 ++ BitVec.allOnes 1 ++ BitVec.allOnes 1 ++
      BitVec.allOnes 1 ++ BitVec.allOnes 4 ++ 0#2 ++ BitVec.allOnes 1 ++ BitVec.allOnes 1 : BitVec 32) := by decide
  rw [hmask]
  exact ((((((((Fits.zero _).append (.all _)).append (.zero _)).append (.all _)).append (.all _)).append
    (.all _)).append (.all _)).append (.zero _)).append (.all _) |>.append (.all _)

/-- A register's word has no bit outside its fields. -/
theorem readReg_fits {s : State} {r : Reg} {v : Word} (h : readReg s r = some v) : Fits v r.fieldMask := by
  cases r with
  | status => cases h; exact statusWord_fits s
  | cmd | leapSeconds | arg0 | arg1 | arg2 | res0 | res1 | m7CellHi | m7CellLo | m7SatmaskHi | m7SatmaskLo
  | m7Sigmask =>
    cases h; exact Fits.all _
  | bufLen | frameBase | frmLen | frmClass | frmPayload | frmNext | crcRecv | crcCalc | m7Station | m7Tow | m7Sync
  | m7Iod | m7Times | m7Clksteer | m7Extclk | m7Smooth | m7Smint | m7Nsat | m7Nsig | m7SatNact | m7SigNact =>
    cases h; exact Fits.setWidth _
  | satList k | sigList k => cases h; exact Fits.setWidth _
  | allow n =>
    cases h
    exact ((Fits.all _).append (.zero 0#19)).append (.all _)
  | frmMsgnum =>
    cases h
    exact (((Fits.zero 0#15).append (.all _)).append (.zero 0#4)).append (.all _)
  | crcStat =>
    cases h
    exact ((Fits.zero 0#30).append (.all _)).append (.all _)
  | m7Valid =>
    cases h
    exact (Fits.zero 0#31).append (.all _)
  | fbuf i =>
    obtain ⟨b, -, rfl⟩ := Option.map_eq_some_iff.1 h
    exact Fits.setWidth b

/-- Settles O51. -/
theorem reservedBitsReadZero : Obligations.ReservedBitsReadZero := fun _ _ _ h => readReg_fits h

/-! ### Words as numbers -/

/-- The map's single rows are below the lists and outside the allowlist, and no two share an offset. -/
theorem singleRegisters_rows : ∀ p ∈ singleRegisters, p.1 % 4 = 0 ∧ p.1 < 0x200 ∧ ¬ (0x040 ≤ p.1 ∧ p.1 < 0x060) ∧
    singleRegisters.lookup p.1 = some p.2 := by decide +kernel

/-- A single row's register. -/
theorem regAt_single {c : Config} {off : Nat} {r : Reg} (h : (off, r) ∈ singleRegisters) : regAt c off = some r := by
  obtain ⟨h4, hlt, hallow, hlookup⟩ := singleRegisters_rows _ h
  dsimp only at h4 hlt hallow hlookup
  rw [regAt, if_neg (not_not.2 h4), if_neg (by omega), if_neg (by omega), if_neg (by omega), if_neg hallow, hlookup]

/-- What an idle read answers, as a number. -/
theorem idle_read_answers {s : State} {addr off : Nat} {r : Reg} {v : Word} {n : Nat} {rest : List Input}
    (hacc : s.AccessNext (.read .w32 addr) off rest) (hp : s.pending = none) (hr : regAt s.config off = some r)
    (hv : readReg s r = some v) (hn : v.toNat = n) :
    n < 2 ^ 32 ∧ step s = .next { s with inputs := rest, replies := ⟨off, BitVec.ofNat 32 n⟩ :: s.replies } := by
  subst hn
  rw [BitVec.ofNat_toNat, BitVec.setWidth_eq]
  exact ⟨v.isLt, idleReadsAnswerAndChangeNothing s addr off r v rest hacc hr hp hv⟩

/-- ALLOW: EN at bit 31, NUM at the bottom (10_state.md R33). -/
theorem allowWord_toNat (en : Bool) (num : BitVec 12) :
    (BitVec.ofBool en ++ 0#19 ++ num).toNat = en.toNat * 2147483648 + num.toNat := by
  simp only [toNat_append_eq, BitVec.toNat_ofBool, BitVec.toNat_ofNat]
  omega

/-- FRM_MSGNUM: MN_IN_PAYLOAD at bit 16, the number at the bottom (10_state.md R35). -/
theorem frmMsgnumWord_toNat (inPayload : Bool) (num : BitVec 12) :
    (0#15 ++ BitVec.ofBool inPayload ++ 0#4 ++ num).toNat = inPayload.toNat * 65536 + num.toNat := by
  simp only [toNat_append_eq, BitVec.toNat_ofBool, BitVec.toNat_ofNat]
  omega

/-- CRC_STAT: MATCH at bit 1, CHECKED at bit 0 (10_state.md R41). -/
theorem crcStatWord_toNat (matched checked : Bool) :
    (0#30 ++ BitVec.ofBool matched ++ BitVec.ofBool checked).toNat = matched.toNat * 2 + checked.toNat := by
  simp only [toNat_append_eq, BitVec.toNat_ofBool, BitVec.toNat_ofNat]
  omega

/-- A single flag at the bottom of the word. -/
theorem flagWord_toNat (valid : Bool) : (0#31 ++ BitVec.ofBool valid).toNat = valid.toNat := by
  simp only [toNat_append_eq, BitVec.toNat_ofBool, BitVec.toNat_ofNat]
  omega

/-- Settles O54: the register at each offset by the address map, its word by `readReg`, and the word as a number by the
places of its fields: `single` for a single register, `field` for one that is a single field. -/
theorem registerWordsStandAtTheirOffsets : Obligations.RegisterWordsStandAtTheirOffsets := by
  intro s addr off rest hacc hp answers
  have single (o : Nat) (r : Reg) {v : Word} {n : Nat} (hr : (o, r) ∈ singleRegisters)
      (hv : readReg s r = some v) (hn : v.toNat = n) : off = o → answers n := fun ho =>
    idle_read_answers hacc hp (ho ▸ regAt_single hr) hv hn
  have field (o : Nat) (r : Reg) {w : Nat} {x : BitVec w} (hr : (o, r) ∈ singleRegisters)
      (hv : readReg s r = some (x.setWidth 32)) (hw : w ≤ 32) : off = o → answers x.toNat :=
    single o r hr hv (BitVec.toNat_setWidth_of_le hw)
  refine ⟨⟨?_, ?_, ?_, ?_, ?_, ?_, ?_, ?_, ?_, ?_⟩, fun n hn ho => ?_, ⟨?_, ?_, ?_, ?_, ?_, ?_, ?_, ?_⟩,
    ⟨?_, ?_, ?_, ?_, ?_, ?_, ?_, ?_, ?_, ?_, ?_, ?_, ?_, ?_, ?_, ?_, ?_, ?_, ?_⟩, fun k ho => ?_, fun k ho => ?_⟩
  · exact single _ .cmd (by decide) rfl rfl
  · exact single _ .status (by decide) rfl rfl
  · exact field _ .bufLen (by decide) rfl (by decide)
  · exact field _ .frameBase (by decide) rfl (by decide)
  · exact single _ .leapSeconds (by decide) rfl rfl
  · exact single _ .arg0 (by decide) rfl rfl
  · exact single _ .arg1 (by decide) rfl rfl
  · exact single _ .arg2 (by decide) rfl rfl
  · exact single _ .res0 (by decide) rfl rfl
  · exact single _ .res1 (by decide) rfl rfl
  · exact idle_read_answers hacc hp (ho ▸ (regAt_allow n).trans (if_pos hn)) rfl (allowWord_toNat _ _)
  · exact field _ .frmLen (by decide) rfl (by decide)
  · exact single _ .frmMsgnum (by decide) rfl (frmMsgnumWord_toNat _ _)
  · refine single _ .frmClass (by decide) rfl ?_
    generalize s.groupF.frmClass = c
    cases c <;> rfl
  · exact field _ .frmPayload (by decide) rfl (by decide)
  · exact field _ .frmNext (by decide) rfl (by decide)
  · exact field _ .crcRecv (by decide) rfl (by decide)
  · exact field _ .crcCalc (by decide) rfl (by decide)
  · exact single _ .crcStat (by decide) rfl (crcStatWord_toNat _ _)
  · exact field _ .m7Station (by decide) rfl (by decide)
  · exact field _ .m7Tow (by decide) rfl (by decide)
  · exact field _ .m7Sync (by decide) rfl (by decide)
  · exact field _ .m7Iod (by decide) rfl (by decide)
  · exact field _ .m7Times (by decide) rfl (by decide)
  · exact field _ .m7Clksteer (by decide) rfl (by decide)
  · exact field _ .m7Extclk (by decide) rfl (by decide)
  · exact field _ .m7Smooth (by decide) rfl (by decide)
  · exact field _ .m7Smint (by decide) rfl (by decide)
  · exact field _ .m7Nsat (by decide) rfl (by decide)
  · exact field _ .m7Nsig (by decide) rfl (by decide)
  · exact single _ .m7CellHi (by decide) rfl rfl
  · exact single _ .m7CellLo (by decide) rfl rfl
  · exact single _ .m7SatmaskHi (by decide) rfl rfl
  · exact single _ .m7SatmaskLo (by decide) rfl rfl
  · exact single _ .m7Sigmask (by decide) rfl rfl
  · exact single _ .m7Valid (by decide) rfl (flagWord_toNat _)
  · exact field _ .m7SatNact (by decide) rfl (by decide)
  · exact field _ .m7SigNact (by decide) rfl (by decide)
  · exact idle_read_answers hacc hp (ho ▸ regAt_satList _ k) rfl (BitVec.toNat_setWidth_of_le (by decide))
  · exact idle_read_answers hacc hp (ho ▸ regAt_sigList _ k) rfl (BitVec.toNat_setWidth_of_le (by decide))

end Sys2Proof.Machine
end
